-- ==== Sys2Proof/Word.lean ====
section
/-! DEFINITION. The widths of the block (spec/00_scope.md R7): every value is an unsigned word of one of these widths. -/

namespace Sys2Proof

/-- A 4-bit value, half of a byte (R7, R12). -/
abbrev Nibble := BitVec 4

/-- A 6-bit value, the unit of Base64 encoding (R7, R12). -/
abbrev Sextet := BitVec 6

/-- An 8-bit value: a decoded byte or a character code (R7, R58). -/
abbrev Byte := BitVec 8

/-- A command word of the 12-bit command port (R7, R51). -/
abbrev Command := BitVec 12

/-- A group of three bytes, 24 bits (R7). -/
abbrev Word24 := BitVec 24

/-- A counter, a status register or the data of a response, 32 bits (R7). -/
abbrev Word32 := BitVec 32

/-- `zext_32` of R9. -/
abbrev zext32 {n : Nat} (v : BitVec n) : Word32 := v.setWidth 32

/-- Four values in order, the first one first: the sextets or the characters of one group (R82, R85). -/
structure Quad (α : Type) where
  c0 : α
  c1 : α
  c2 : α
  c3 : α
deriving DecidableEq, Repr

/-- The four values as a sequence, in the order of R42. -/
def Quad.toList {α : Type} (q : Quad α) : List α := [q.c0, q.c1, q.c2, q.c3]

/-- The same function on each of the four values (the four copies of the mapper, R80). -/
def Quad.map {α β : Type} (f : α → β) (q : Quad α) : Quad β := ⟨f q.c0, f q.c1, f q.c2, f q.c3⟩

end Sys2Proof
end

