-- ==== Sys2Proof/Syntax.lean ====
section
/-! DEFINITION. The commands of the block, one constructor per row of spec/opcode_table.json (spec/30_encoding.md R52), and
the abstract form of the assembler lines and pseudo-commands (R56, R57). -/

namespace Sys2Proof

/-- The seven status registers, in the order of their numbers (spec/10_state.md R28). -/
inductive StatusReg where
  | status
  | pos
  | olen
  | rptr
  | errpos
  | errchar
  | cap
deriving DecidableEq, Repr

/-- One command. RSR has one constructor per register, as the opcode table has one row per register. -/
inductive Instr where
  /-- `PUT c`: the next character of the message (R74). -/
  | put (c : Byte)
  /-- `END`: the message is complete (R90). -/
  | endMsg
  /-- `POP`: the next character of the result (R95). -/
  | pop
  /-- `CLR`: back to the reset state (R96). -/
  | clr
  /-- `RSR STATUS` (R97). -/
  | rsrStatus
  /-- `RSR POS` (R97). -/
  | rsrPos
  /-- `RSR OLEN` (R97). -/
  | rsrOlen
  /-- `RSR RPTR` (R97). -/
  | rsrRptr
  /-- `RSR ERRPOS` (R97). -/
  | rsrErrpos
  /-- `RSR ERRCHAR` (R97). -/
  | rsrErrchar
  /-- `RSR CAP` (R97). -/
  | rsrCap
deriving DecidableEq, Repr

/-- The name of the command's row in spec/opcode_table.json. -/
def Instr.mnemonic : Instr → String
  | .put _ => "PUT"
  | .endMsg => "END"
  | .pop => "POP"
  | .clr => "CLR"
  | .rsrStatus => "RSR_STATUS"
  | .rsrPos => "RSR_POS"
  | .rsrOlen => "RSR_OLEN"
  | .rsrRptr => "RSR_RPTR"
  | .rsrErrpos => "RSR_ERRPOS"
  | .rsrErrchar => "RSR_ERRCHAR"
  | .rsrCap => "RSR_CAP"

/-- One line of a command stream as its writer gives it, operands still plain numbers: the commands of R56 and the
pseudo-commands of R57. `Line.wf` says which lines have a meaning. -/
inductive Line where
  | put (c : Nat)
  | endMsg
  | pop
  | clr
  | rsr (n : Nat)
  | puts (text : List Nat)
  | popn (k : Nat)
  | msg (text : List Nat)
  | conv (text : List Nat) (k : Nat)
deriving DecidableEq, Repr

end Sys2Proof
end

