-- ==== Sys2Proof/WellFormed.lean ====
section
/-! DEFINITION. Well-formedness. A term of `Instr` is well formed by its types (the operand of PUT is 8 bits, R54; each RSR row
is its own constructor), so every `Instr` has an encoding. What can be ill formed is a line of text, whose operands are
plain numbers: a character must fit 8 bits and a status register number must name a register (R28, R53, R54). -/

namespace Sys2Proof

/-- A number is a character code (R54, R58). -/
def isCharCode (n : Nat) : Bool := decide (n < 256)

/-- A number names a status register (R28). -/
def isStatusNumber (n : Nat) : Bool := decide (n < 7)

/-- The line stands for commands of the block: its characters are 8-bit codes and its register number is 0 to 6. -/
def Line.wf : Line → Bool
  | .put c => isCharCode c
  | .endMsg => true
  | .pop => true
  | .clr => true
  | .rsr n => isStatusNumber n
  | .puts text => text.all isCharCode
  | .popn _ => true
  | .msg text => text.all isCharCode
  | .conv text _ => text.all isCharCode

end Sys2Proof
end

