-- ==== Sys2Proof/Decode.lean ====
section
/-! DEFINITION. From command words to commands and back (spec/30_encoding.md R51 to R54): the opcode map as mask and match
rows, the decoder, total on the 4096 words and rejecting by name, the encoder, and the two readings of a word the host
numbers as spec/opcode_table.json does. -/

namespace Sys2Proof

/-! ## The opcode map -/

/-- One row of the opcode map: a word `w` selects it when `(w AND mask) = pattern` (R52). -/
structure OpcodeRow where
  mnemonic : String
  pattern : Command
  mask : Command
deriving DecidableEq, Repr

/-- The word selects the row (R52). -/
def OpcodeRow.selects (r : OpcodeRow) (w : Command) : Bool := w &&& r.mask == r.pattern

/-- The eleven rows of R52, RSR once per register number. -/
def opcodeTable : List OpcodeRow := [
  ⟨"PUT", 0x100#12, 0xF00#12⟩,
  ⟨"END", 0x200#12, 0xFFF#12⟩,
  ⟨"POP", 0x300#12, 0xFFF#12⟩,
  ⟨"CLR", 0x400#12, 0xFFF#12⟩,
  ⟨"RSR_STATUS", 0x500#12, 0xFFF#12⟩,
  ⟨"RSR_POS", 0x501#12, 0xFFF#12⟩,
  ⟨"RSR_OLEN", 0x502#12, 0xFFF#12⟩,
  ⟨"RSR_RPTR", 0x503#12, 0xFFF#12⟩,
  ⟨"RSR_ERRPOS", 0x504#12, 0xFFF#12⟩,
  ⟨"RSR_ERRCHAR", 0x505#12, 0xFFF#12⟩,
  ⟨"RSR_CAP", 0x506#12, 0xFFF#12⟩]

/-- The word is a legal command: it selects some row (R52, R53). -/
def legalWord (w : Command) : Bool := opcodeTable.any fun r => r.selects w

/-! ## The decoder -/

/-- Why a word is an illegal command (the four groups of R53). All are answered alike (R115). -/
inductive DecodeError where
  /-- `op` is 0x0 or 0x6 to 0xF. -/
  | unassignedOpcode (op : BitVec 4)
  /-- END, POP or CLR with `imm ≠ 0x00`. -/
  | nonzeroImmediate (op : BitVec 4) (imm : BitVec 8)
  /-- RSR with `imm ≥ 0x07`. -/
  | noSuchRegister (imm : BitVec 8)
deriving DecidableEq, Repr

/-- The field `op`, bits 11:8 (R51). -/
def opField (w : Command) : BitVec 4 := w.extractLsb' 8 4

/-- The field `imm`, bits 7:0 (R51). -/
def immField (w : Command) : BitVec 8 := w.extractLsb' 0 8

/-- A command without operand: its immediate must be zero (R52). -/
def decodePlain (i : Instr) (op : BitVec 4) (imm : BitVec 8) : Except DecodeError Instr :=
  if imm = 0x00#8 then .ok i else .error (.nonzeroImmediate op imm)

/-- RSR: the immediate is the register number, 0 to 6 (R28, R52). -/
def decodeRsr (imm : BitVec 8) : Except DecodeError Instr :=
  if imm = 0x00#8 then .ok .rsrStatus
  else if imm = 0x01#8 then .ok .rsrPos
  else if imm = 0x02#8 then .ok .rsrOlen
  else if imm = 0x03#8 then .ok .rsrRptr
  else if imm = 0x04#8 then .ok .rsrErrpos
  else if imm = 0x05#8 then .ok .rsrErrchar
  else if imm = 0x06#8 then .ok .rsrCap
  else .error (.noSuchRegister imm)

/-- The command a word stands for, or why it stands for none (R51 to R54). -/
def decode (w : Command) : Except DecodeError Instr :=
  let op := opField w
  let imm := immField w
  if op = 0x1#4 then .ok (.put imm)
  else if op = 0x2#4 then decodePlain .endMsg op imm
  else if op = 0x3#4 then decodePlain .pop op imm
  else if op = 0x4#4 then decodePlain .clr op imm
  else if op = 0x5#4 then decodeRsr imm
  else .error (.unassignedOpcode op)

/-! ## The encoder -/

/-- The word `op ‖ imm` (R51, R56). -/
def commandWord (op : BitVec 4) (imm : BitVec 8) : Command := op ++ imm

/-- The word of a command (R52). -/
def encode : Instr → Command
  | .put c => commandWord 0x1#4 c
  | .endMsg => commandWord 0x2#4 0x00#8
  | .pop => commandWord 0x3#4 0x00#8
  | .clr => commandWord 0x4#4 0x00#8
  | .rsrStatus => commandWord 0x5#4 0x00#8
  | .rsrPos => commandWord 0x5#4 0x01#8
  | .rsrOlen => commandWord 0x5#4 0x02#8
  | .rsrRptr => commandWord 0x5#4 0x03#8
  | .rsrErrpos => commandWord 0x5#4 0x04#8
  | .rsrErrchar => commandWord 0x5#4 0x05#8
  | .rsrCap => commandWord 0x5#4 0x06#8

/-! ## Words as the opcode table numbers their bits -/

/-- The command word whose bits are `w`, bit 0 the least significant, of which the first `nbits` count. The command port
has 12 wires (R50), so a number with a bit above them is no command word. DESIGN CHOICE (log entry 10). -/
def tableWord (nbits w : Nat) : Option Command :=
  let v := w % 2 ^ nbits
  if v < 4096 then some (BitVec.ofNat 12 v) else none

/-- What the decoder reads from that word. -/
def decodeTableWord (nbits w : Nat) : Option Instr :=
  match tableWord nbits w with
  | none => none
  | some c =>
    match decode c with
    | .ok i => some i
    | .error _ => none

end Sys2Proof
end

