-- ==== Sys2Proof/Config.lean ====
section
/-! DEFINITION. The one implementation parameter of the block, MAX_GROUPS, and the two constants that follow from it (spec/00_scope.md R6). -/

namespace Sys2Proof

/-- An instance of the block: MAX_GROUPS, an integer from 1 to 65536 (R6). The bounds are carried by the value, so no
instance outside them can be written. -/
structure Params where
  maxGroups : Nat
  maxGroups_pos : 1 ≤ maxGroups
  maxGroups_le : maxGroups ≤ 65536
deriving DecidableEq, Repr

/-- MAX_CHARS, the greatest number of input characters of one message (R6). -/
def Params.maxChars (p : Params) : Nat := 6 * p.maxGroups

/-- MAX_OUT, the capacity of the output buffer in characters (R6). -/
def Params.maxOut (p : Params) : Nat := 4 * p.maxGroups

/-- The parameter from a number, refused outside 1 to 65536 (R6). -/
def Params.ofNat? (n : Nat) : Option Params :=
  if h : 1 ≤ n ∧ n ≤ 65536 then some ⟨n, h.1, h.2⟩ else none

/-- The instance that `State.reset` stands for. DESIGN CHOICE (log entry 1): the spec leaves MAX_GROUPS open (D6); 16 is
the least value for which every vector of 95_test_vectors.md that names none holds (R6). No statement rests on it. -/
def Params.default : Params := ⟨16, by decide, by decide⟩

end Sys2Proof
end

