-- ==== Sys2Proof/Machine/State.lean ====
section
/-! DEFINITION. The state of the block, whole (spec/10_state.md R13), the host's side of its two ports (R33, spec/30_encoding.md
R50), the reasons a step can stop, and the state after reset (R32). -/

namespace Sys2Proof.Machine

/-- The three values of PHASE (R14). The fourth code, 3, is never held (93_implementation_defined.md X9, log entry 7). -/
inductive Phase where
  | run
  | done
  | err
deriving DecidableEq, Repr

/-- The three faults of a message (R105). ERRCODE holds one of them, or 0 for no fault (R24). -/
inductive MsgFault where
  | invalidHexDigit
  | invalidHexLength
  | capacityExceeded
deriving DecidableEq, Repr

/-- The status of a response (R55). -/
inductive RspStatus where
  | ok
  | fault
  | refused
  | illegal
deriving DecidableEq, Repr

/-- The response to one accepted command: `rsp_status` and `rsp_data` (R55). -/
structure Response where
  status : RspStatus
  data : Word32
deriving DecidableEq, Repr

/-- What the host does to the block, one event per step: it has a command word accepted, or it resets the block between
two commands (R33, R123, R133). -/
inductive Input where
  | command (w : Command)
  | reset
deriving DecidableEq, Repr

/-- The cells of OBUF that hold a value, by index (R21, R35). `Memory.wf` is the canonical form: indices strictly rising. -/
abbrev Memory := List Host.Cell

/-- The state of the block (R13), with the instance's parameter and the host's side of the ports. -/
structure State where
  /-- MAX_GROUPS: a parameter, written by no rule (R6, R33; log entry 1). -/
  params : Params
  /-- PHASE (R14). -/
  phase : Phase
  /-- POS: characters of this message accepted so far (R15). -/
  pos : Word32
  /-- NIB: the high nibble waiting for its partner (R16). -/
  nib : Nibble
  /-- NIBV: NIB holds a waiting nibble (R17). -/
  nibv : Bool
  /-- B0: first byte of the group being collected (R18). -/
  b0 : Byte
  /-- B1: second byte of the group being collected (R18). -/
  b1 : Byte
  /-- GCNT: bytes held of the group being collected, 0 to 2 (R19; 3 is never held, log entry 7). -/
  gcnt : Fin 3
  /-- OBUF: the output characters of this message (R21, R37). -/
  obuf : Memory
  /-- OLEN: number of characters in OBUF (R22). -/
  olen : Word32
  /-- RPTR: index of the next character POP returns (R23). -/
  rptr : Word32
  /-- ERRCODE: the fault recorded, `none` for code 0 (R24). -/
  errcode : Option MsgFault
  /-- ERRPOS: position recorded by the fault (R25). -/
  errpos : Word32
  /-- ERRCHAR: character recorded by the fault (R26). -/
  errchar : Byte
  /-- The host's events not yet taken, oldest first (R33; log entry 2). -/
  inputs : List Input
  /-- The responses given so far, oldest first (R50, R55; log entry 4). -/
  responses : List Response
deriving DecidableEq, Repr

/-- Why a step can stop with a fault. Both arise only in a state that breaks R31, which no run reaches and to which the
spec gives no behaviour (R116, X9); both are safe. The block's own faults (R105) are no stops: they are next states. -/
inductive Fault where
  /-- Raised by POP when OBUF holds no value at the index RPTR (R21). Safe; log entry 5. -/
  | outputCellAbsent
  /-- Raised by PUT and END when the append would write an index outside 0 to MAX_OUT − 1 (R35, R37). Safe; log entry 6. -/
  | outputIndexOutside
deriving DecidableEq, Repr

/-- Why a step can be refused by the model. No command raises it: every row of the opcode table has its meaning. -/
inductive Refusal where
  /-- Raised by an arm of `exec` whose command has no meaning yet. Safe. -/
  | notModelled (mnemonic : String)
deriving DecidableEq, Repr

/-- The instance `p` right after reset: the table of R32, no event pending, no response given. -/
def State.resetOf (p : Params) : State where
  params := p
  phase := .run
  pos := 0
  nib := 0
  nibv := false
  b0 := 0
  b1 := 0
  gcnt := 0
  obuf := []
  olen := 0
  rptr := 0
  errcode := none
  errpos := 0
  errchar := 0
  inputs := []
  responses := []

/-- The machine right after reset (R32), for the instance of log entry 1. -/
def State.reset : State := State.resetOf Params.default

end Sys2Proof.Machine
end

