-- ==== Sys2Proof/Machine/Flags.lean ====
section
/-! DEFINITION. What the host can see of the state: the codes of the fields (spec/10_state.md R14, R24, spec/30_encoding.md R55),
the STATUS word (R29), the seven status registers (R28, R30) and the two level outputs (R34). -/

namespace Sys2Proof.Machine

/-- PHASE as its two bits (R14). -/
def Phase.code : Phase → BitVec 2
  | .run => 0
  | .done => 1
  | .err => 2

/-- The number of a fault (R105). -/
def MsgFault.code : MsgFault → BitVec 2
  | .invalidHexDigit => 1
  | .invalidHexLength => 2
  | .capacityExceeded => 3

/-- ERRCODE as its two bits, 0 for no fault (R24). -/
def errcodeBits : Option MsgFault → BitVec 2
  | none => 0
  | some f => f.code

/-- GCNT as its two bits (R19). -/
def gcntBits (g : Fin 3) : BitVec 2 := BitVec.ofNat 2 g.val

/-- `rsp_status` as its two bits (R55). -/
def RspStatus.code : RspStatus → BitVec 2
  | .ok => 0
  | .fault => 1
  | .refused => 2
  | .illegal => 3

/-- STATUS: PHASE in bits 1:0, ERRCODE in 3:2, NIBV in 4, GCNT in 6:5, zero above (R29). -/
def statusWord (s : State) : Word32 :=
  zext32 (gcntBits s.gcnt ++ BitVec.ofBool s.nibv ++ errcodeBits s.errcode ++ s.phase.code)

/-- CAP: MAX_GROUPS as a 32-bit number (R27, R30). -/
def capWord (s : State) : Word32 := BitVec.ofNat 32 s.params.maxGroups

/-- The value of a status register (R28). Reading one has no side effect. -/
def srValue : StatusReg → State → Word32
  | .status, s => statusWord s
  | .pos, s => s.pos
  | .olen, s => s.olen
  | .rptr, s => s.rptr
  | .errpos, s => s.errpos
  | .errchar, s => zext32 s.errchar
  | .cap, s => capWord s

/-- The number of a status register (R28). -/
def srNumber : StatusReg → BitVec 8
  | .status => 0
  | .pos => 1
  | .olen => 2
  | .rptr => 3
  | .errpos => 4
  | .errchar => 5
  | .cap => 6

/-- The level output `done` (R34). -/
def doneOut (s : State) : Bool := s.phase == .done

/-- The level output `err` (R34). -/
def errOut (s : State) : Bool := s.phase == .err

end Sys2Proof.Machine
end

