-- ==== Sys2Proof/Machine/Operands.lean ====
section
/-! DEFINITION. The datapath as pure functions of its operands: the nibble lookup, the pair, the 24-bit word, the sextets, the
alphabet mapper (spec/40_hex_decode.md R71 to R73, spec/41_base64_encode.md R81 to R85), and the two tables they stand for
(spec/30_encoding.md R59, R61). -/

namespace Sys2Proof.Machine

/-! ## Hex digits -/

/-- The nibble of a character code, or no nibble at all: `'0'..'9'` give 0 to 9, `'a'..'f'` give 10 to 15, and every other
code is invalid (R71, R60, R72). -/
def nib (c : Byte) : Option Nibble :=
  if 0x30#8 ≤ c ∧ c ≤ 0x39#8 then some ((c - 0x30#8).setWidth 4)
  else if 0x61#8 ≤ c ∧ c ≤ 0x66#8 then some ((c - 0x61#8 + 10#8).setWidth 4)
  else none

/-- The hex-digit table in full: character code and nibble (R59). -/
def hexDigitTable : List (Byte × Nibble) := [
  (0x30, 0), (0x31, 1), (0x32, 2), (0x33, 3), (0x34, 4), (0x35, 5), (0x36, 6), (0x37, 7),
  (0x38, 8), (0x39, 9), (0x61, 10), (0x62, 11), (0x63, 12), (0x64, 13), (0x65, 14), (0x66, 15)]

/-- The table of R59 read from nibble to character, lower case: the digit that `hex_encode` writes (R79). -/
def hexDigit (n : Nibble) : Byte :=
  if n ≤ 9#4 then 0x30#8 + n.setWidth 8 else 0x61#8 + (n.setWidth 8 - 10#8)

/-- Two nibbles, high first, form a byte (R73). -/
def pair (h l : Nibble) : Byte := h ++ l

/-! ## Sextets and the alphabet -/

/-- Three bytes as one big-endian 24-bit value (R81). -/
def word24 (b0 b1 b2 : Byte) : Word24 := b0 ++ b1 ++ b2

/-- The four sextets of a group, most significant first (R82). -/
def sextets (w : Word24) : Quad Sextet :=
  ⟨w.extractLsb' 18 6, w.extractLsb' 12 6, w.extractLsb' 6 6, w.extractLsb' 0 6⟩

/-- The alphabet in the order of its sextet values: `A-Z`, `a-z`, `0-9`, `+`, `/` (R61). -/
def base64Alphabet : List Byte := [
  0x41, 0x42, 0x43, 0x44, 0x45, 0x46, 0x47, 0x48, 0x49, 0x4A, 0x4B, 0x4C, 0x4D, 0x4E, 0x4F, 0x50,
  0x51, 0x52, 0x53, 0x54, 0x55, 0x56, 0x57, 0x58, 0x59, 0x5A, 0x61, 0x62, 0x63, 0x64, 0x65, 0x66,
  0x67, 0x68, 0x69, 0x6A, 0x6B, 0x6C, 0x6D, 0x6E, 0x6F, 0x70, 0x71, 0x72, 0x73, 0x74, 0x75, 0x76,
  0x77, 0x78, 0x79, 0x7A, 0x30, 0x31, 0x32, 0x33, 0x34, 0x35, 0x36, 0x37, 0x38, 0x39, 0x2B, 0x2F]

/-- The character of a sextet, in the arithmetic form (R62, R84). A sextet outside 0 to 63 does not exist (R93). -/
def b64char (v : Sextet) : Byte :=
  if v ≤ 25#6 then 0x41#8 + v.setWidth 8
  else if v ≤ 51#6 then 0x61#8 + (v.setWidth 8 - 26#8)
  else if v ≤ 61#6 then 0x30#8 + (v.setWidth 8 - 52#8)
  else if v = 62#6 then 0x2B#8
  else 0x2F#8

/-- The four characters of a group of three bytes (R85). -/
def encGroup (b0 b1 b2 : Byte) : Quad Byte := (sextets (word24 b0 b1 b2)).map b64char

end Sys2Proof.Machine
end

