-- ==== Sys2Proof/Machine/Ops.lean ====
section
/-! DEFINITION. The operations the commands share: the output buffer (spec/20_memory.md R35 to R39), the response (spec/30_encoding.md
R55), the refusal and the illegal command (spec/60_exceptions.md R114, R115), the fault entry (R110), the return to the
reset state (spec/42_control_readout.md R96, spec/70_reset_and_hazards.md R123), the byte grouping and the append
(spec/41_base64_encode.md R83, R86), and the taking of the host's next event. -/

namespace Sys2Proof.Machine

/-! ## The output buffer -/

/-- What an index with no listed cell reads as: no value (R21). Log entry 5. -/
def Memory.unlisted : Option Byte := none

/-- The canonical form: indices strictly rising, and no cell equal to what an unlisted index reads as. -/
abbrev Memory.wf (m : Memory) : Prop :=
  m.Pairwise (fun x y => x.1 < y.1) ∧ ∀ x ∈ m, some x.2 ≠ Memory.unlisted

/-- `MemRead(i, 1)`: the character at an index, if the cell has a value (R10, R39). -/
def Memory.read : Memory → Nat → Option Byte
  | [], _ => Memory.unlisted
  | x :: m, i => if x.1 = i then some x.2 else Memory.read m i

/-- `MemWrite(i, 1, v)`, keeping the indices strictly rising (R10, R39). -/
def Memory.write : Memory → Nat → Byte → Memory
  | [], i, v => [(i, v)]
  | x :: m, i, v =>
    if i < x.1 then (i, v) :: x :: m
    else if i = x.1 then (i, v) :: m
    else x :: Memory.write m i v

/-- Writes of a sequence at successive indices from `i` on, the first character at `i` (R42, R86). -/
def Memory.writeFrom (m : Memory) (i : Nat) : List Byte → Memory
  | [] => m
  | v :: vs => Memory.writeFrom (Memory.write m i v) (i + 1) vs

/-! ## Responses -/

/-- `respond(status, data)`: the response of the command (R55). -/
def respond (status : RspStatus) (data : Word32) (s : State) : State :=
  { s with responses := s.responses ++ [⟨status, data⟩] }

/-- `refuse`: a legal command the phase does not allow changes nothing and is answered REFUSED (R10, R114). -/
def refuse (s : State) : State := respond .refused 0 s

/-- An illegal command changes nothing, in any phase, and is answered ILLEGAL (R53, R115). -/
def illegal (s : State) : State := respond .illegal 0 s

/-! ## The fault entry and the way out -/

/-- `raise F(pos, ch)`: the fault entry (R110). POS is not written; nothing else is saved. -/
def raiseFault (f : MsgFault) (pos : Word32) (ch : Byte) (s : State) : State :=
  respond .fault (zext32 f.code)
    { s with
      errcode := some f, errpos := pos, errchar := ch
      olen := 0, rptr := 0, obuf := []
      nib := 0, nibv := false, b0 := 0, b1 := 0, gcnt := 0
      phase := .err }

/-- Every register back to its reset value (R32, R96, R123): what CLR and the reset event have in common. The instance's
parameter and the host's side of the ports are no registers and stay. -/
def clearState (s : State) : State :=
  { s with
    phase := .run, pos := 0
    nib := 0, nibv := false, b0 := 0, b1 := 0, gcnt := 0
    olen := 0, rptr := 0, obuf := []
    errcode := none, errpos := 0, errchar := 0 }

/-! ## Byte grouping and append -/

/-- `append4`: the four characters at OLEN to OLEN + 3, then OLEN + 4 (R86). The indices of OBUF are 0 to MAX_OUT − 1
(R35); an append beyond them cannot arise (R37), and where it would the model stops (log entry 6). -/
def append4 (q : Quad Byte) (s : State) : Except Fault State :=
  if s.olen.toNat + 4 ≤ s.params.maxOut then
    .ok { s with obuf := Memory.writeFrom s.obuf s.olen.toNat q.toList, olen := s.olen + 4 }
  else .error .outputIndexOutside

/-- `push_byte(b)`: a decoded byte enters the group being collected; the third completes it (R83). -/
def pushByte (b : Byte) (s : State) : Except Fault State :=
  match s.gcnt with
  | 0 => .ok { s with b0 := b, gcnt := 1 }
  | 1 => .ok { s with b1 := b, gcnt := 2 }
  | 2 =>
    match append4 (encGroup s.b0 s.b1 b) s with
    | .error f => .error f
    | .ok t => .ok { t with b0 := 0, b1 := 0, gcnt := 0 }

/-- Step 3 of END: a short final group is zero-filled and appended, an empty one appends nothing (R87, R90). -/
def flushGroup (s : State) : Except Fault State :=
  match s.gcnt with
  | 0 => .ok s
  | 1 => append4 (encGroup s.b0 0x00#8 0x00#8) s
  | 2 => append4 (encGroup s.b0 s.b1 0x00#8) s

/-! ## Status registers -/

/-- `RSR n`: the register is the response, and nothing else is written (R97). -/
def readStatus (r : StatusReg) (s : State) : State := respond .ok (srValue r s) s

/-! ## The host's events -/

/-- The reset event: every register to its reset value, and no response (R123, R125). -/
def resetEvent (s : State) : State := clearState s

/-- The host has one more event taken before the others (log entry 2). -/
def offer (e : Input) (s : State) : State := { s with inputs := e :: s.inputs }

end Sys2Proof.Machine
end

