-- ==== Sys2Proof/Machine/Base64Encode.lean ====
section
/-! DEFINITION. The command that finishes a message: END (spec/41_base64_encode.md R87, R90, R91). -/

namespace Sys2Proof.Machine

/-- Steps 4 to 6 of END: the group registers are cleared, the result is released, and its length is the response (R90). -/
def finishMessage (s : State) : State :=
  respond .ok s.olen { s with b0 := 0, b1 := 0, gcnt := 0, phase := .done }

/-- `END` (R90): phase, then odd length, then the short final group. -/
def execEnd (s : State) : Host.Outcome State Fault Refusal :=
  match s.phase with
  | .run =>
    if s.nibv then .next (raiseFault .invalidHexLength s.pos 0x00#8 s)
    else
      match flushGroup s with
      | .error f => .fault f
      | .ok t => .next (finishMessage t)
  | .done => .next (refuse s)
  | .err => .next (refuse s)

end Sys2Proof.Machine
end

