-- ==== Sys2Proof/Machine/Control.lean ====
section
/-! DEFINITION. The commands that carry no data into the datapath: POP, CLR and the seven RSR (spec/42_control_readout.md R94 to R97). -/

namespace Sys2Proof.Machine

/-- `POP` (R95): refused outside DONE and when nothing is left, else the character at RPTR. -/
def execPop (s : State) : Host.Outcome State Fault Refusal :=
  match s.phase with
  | .done =>
    if s.rptr = s.olen then .next (refuse s)
    else
      match Memory.read s.obuf s.rptr.toNat with
      | none => .fault .outputCellAbsent
      | some v => .next (respond .ok (zext32 v) { s with rptr := s.rptr + 1 })
  | .run => .next (refuse s)
  | .err => .next (refuse s)

/-- `CLR` (R96): the reset state, in every phase. -/
def execClr (s : State) : Host.Outcome State Fault Refusal := .next (respond .ok 0 (clearState s))

/-- `RSR STATUS` (R97). -/
def execRsrStatus (s : State) : Host.Outcome State Fault Refusal := .next (readStatus .status s)

/-- `RSR POS` (R97). -/
def execRsrPos (s : State) : Host.Outcome State Fault Refusal := .next (readStatus .pos s)

/-- `RSR OLEN` (R97). -/
def execRsrOlen (s : State) : Host.Outcome State Fault Refusal := .next (readStatus .olen s)

/-- `RSR RPTR` (R97). -/
def execRsrRptr (s : State) : Host.Outcome State Fault Refusal := .next (readStatus .rptr s)

/-- `RSR ERRPOS` (R97). -/
def execRsrErrpos (s : State) : Host.Outcome State Fault Refusal := .next (readStatus .errpos s)

/-- `RSR ERRCHAR` (R97). -/
def execRsrErrchar (s : State) : Host.Outcome State Fault Refusal := .next (readStatus .errchar s)

/-- `RSR CAP` (R97). -/
def execRsrCap (s : State) : Host.Outcome State Fault Refusal := .next (readStatus .cap s)

end Sys2Proof.Machine
end

