-- ==== Sys2Proof/Machine/HexDecode.lean ====
section
/-! DEFINITION. The command that drives the Hex Decoder: PUT (spec/40_hex_decode.md R74 to R76). -/

namespace Sys2Proof.Machine

/-- Steps 4 to 6 of PUT, for a character that is a digit: the first of a pair waits in NIB, the second completes a byte,
which enters the group (R74). -/
def acceptNibble (n : Nibble) (s : State) : Except Fault State :=
  if s.nibv then
    match pushByte (pair s.nib n) { s with nib := 0, nibv := false } with
    | .error f => .error f
    | .ok t => .ok (respond .ok 0 { t with pos := t.pos + 1 })
  else .ok (respond .ok 0 { s with nib := n, nibv := true, pos := s.pos + 1 })

/-- `PUT c` (R74): phase, then capacity, then digit (R109). -/
def execPut (c : Byte) (s : State) : Host.Outcome State Fault Refusal :=
  match s.phase with
  | .run =>
    if s.pos.toNat = s.params.maxChars then .next (raiseFault .capacityExceeded s.pos c s)
    else
      match nib c with
      | none => .next (raiseFault .invalidHexDigit s.pos c s)
      | some n =>
        match acceptNibble n s with
        | .error f => .fault f
        | .ok t => .next t
  | .done => .next (refuse s)
  | .err => .next (refuse s)

end Sys2Proof.Machine
end

