-- ==== Sys2Proof/Machine/Dispatch.lean ====
section
/-! DEFINITION. One command's effect: one arm per constructor of Instr, each a direct call of its meaning. -/

namespace Sys2Proof.Machine

def exec (i : Instr) (s : State) : Host.Outcome State Fault Refusal :=
  match i with
  | .put c => Sys2Proof.Machine.execPut c s
  | .endMsg => Sys2Proof.Machine.execEnd s
  | .pop => Sys2Proof.Machine.execPop s
  | .clr => Sys2Proof.Machine.execClr s
  | .rsrStatus => Sys2Proof.Machine.execRsrStatus s
  | .rsrPos => Sys2Proof.Machine.execRsrPos s
  | .rsrOlen => Sys2Proof.Machine.execRsrOlen s
  | .rsrRptr => Sys2Proof.Machine.execRsrRptr s
  | .rsrErrpos => Sys2Proof.Machine.execRsrErrpos s
  | .rsrErrchar => Sys2Proof.Machine.execRsrErrchar s
  | .rsrCap => Sys2Proof.Machine.execRsrCap s

end Sys2Proof.Machine
end

