-- ==== Sys2Proof/Machine/Step.lean ====
section
/-! DEFINITION. One step of the block: it takes the host's next event (spec/20_memory.md R46, spec/70_reset_and_hazards.md R133). -/

namespace Sys2Proof.Machine

/-- The host's next event is taken: a command word is decoded and executed, or is illegal, which is checked before
anything else (R109, R115); the reset event replaces the registers (R123); with no event the block holds its state
(R122, R124; log entry 3). -/
def step (s : State) : Host.Outcome State Fault Refusal :=
  match s.inputs with
  | [] => .next s
  | .reset :: rest => .next (resetEvent { s with inputs := rest })
  | .command w :: rest =>
    match decode w with
    | .ok i => exec i { s with inputs := rest }
    | .error _ => .next (illegal { s with inputs := rest })

/-- The state in which the host's next event is the command word whose bits are `w` (log entries 2 and 10). A number that
is no 12-bit word cannot be offered at the port and changes nothing. -/
def State.withFetchWord (s : State) (nbits w : Nat) : State :=
  match tableWord nbits w with
  | some c => offer (.command c) s
  | none => s

end Sys2Proof.Machine
end

