-- ==== Sys2Proof/Machine/Assembler.lean ====
section
/-! DEFINITION. Command streams as text: one command per line (spec/30_encoding.md R56), the pseudo-commands and their
expansions (R57), the words of a stream. The lexical detail R56 leaves open is log entry 12. -/

namespace Sys2Proof.Machine

/-! ## Expansion and encoding -/

/-- The RSR of a register number (R28, R56). -/
def rsrOfNumber : Nat → Option Instr
  | 0 => some .rsrStatus
  | 1 => some .rsrPos
  | 2 => some .rsrOlen
  | 3 => some .rsrRptr
  | 4 => some .rsrErrpos
  | 5 => some .rsrErrchar
  | 6 => some .rsrCap
  | _ => none

/-- `PUTS "s"`: one PUT per character, in order (R57). -/
def expandPuts (text : List Nat) : List Instr := text.map fun c => .put (BitVec.ofNat 8 c)

/-- `MSG "s"`: CLR, the PUTs, END (R57). -/
def expandMsg (text : List Nat) : List Instr := .clr :: expandPuts text ++ [.endMsg]

/-- The commands a well-formed line stands for (R56, R57); an ill-formed line stands for none. -/
def lineCommands (l : Line) : Option (List Instr) :=
  if l.wf then
    match l with
    | .put c => some [.put (BitVec.ofNat 8 c)]
    | .endMsg => some [.endMsg]
    | .pop => some [.pop]
    | .clr => some [.clr]
    | .rsr n => (rsrOfNumber n).map fun i => [i]
    | .puts text => some (expandPuts text)
    | .popn k => some (List.replicate k .pop)
    | .msg text => some (expandMsg text)
    | .conv text k => some (expandMsg text ++ List.replicate k .pop)
  else none

/-- The words of a line (R52, R56). -/
def lineWords (l : Line) : Option (List Command) := (lineCommands l).map fun is => is.map encode

/-! ## Reading one line of text -/

/-- A blank between the parts of a line. -/
def isBlank (c : Char) : Bool := c == ' ' || c == '\t'

/-- The text after its leading blanks. -/
def skipBlanks : List Char → List Char
  | [] => []
  | c :: cs => if isBlank c then skipBlanks cs else c :: cs

/-- The characters up to the next blank or semicolon, and what follows them. -/
def takeWord : List Char → List Char × List Char
  | [] => ([], [])
  | c :: cs =>
    if isBlank c || c == ';' then ([], c :: cs)
    else (c :: (takeWord cs).1, (takeWord cs).2)

/-- Nothing but blanks and a comment is left on the line: a semicolon starts a comment that runs to its end (R56). -/
def atEnd (cs : List Char) : Bool :=
  match skipBlanks cs with
  | [] => true
  | c :: _ => c == ';'

/-- The value of a digit character in a base up to sixteen. DESIGN CHOICE (log entry 12): R9 and R56 do not say in which
letter case the digits above 9 of a `0x` numeral stand; both are read. -/
def digitValue (base : Nat) (c : Char) : Option Nat :=
  let v :=
    if '0' ≤ c ∧ c ≤ '9' then c.toNat - '0'.toNat
    else if 'a' ≤ c ∧ c ≤ 'f' then c.toNat - 'a'.toNat + 10
    else if 'A' ≤ c ∧ c ≤ 'F' then c.toNat - 'A'.toNat + 10
    else 16
  if v < base then some v else none

/-- The value of a sequence of digits, most significant first, on top of `acc`. -/
def digitsValue (base acc : Nat) : List Char → Option Nat
  | [] => some acc
  | c :: cs =>
    match digitValue base c with
    | none => none
    | some v => digitsValue base (acc * base + v) cs

/-- A numeral: `0x` hexadecimal, `0b` binary, otherwise decimal (R9). -/
def numeral : List Char → Option Nat
  | '0' :: 'x' :: d :: ds => digitsValue 16 0 (d :: ds)
  | '0' :: 'b' :: d :: ds => digitsValue 2 0 (d :: ds)
  | d :: ds => digitsValue 10 0 (d :: ds)
  | [] => none

/-- The code of a character in quotes: its ASCII code (R9, R58). -/
def quotedCode (c : Char) : Option Nat := if c.toNat < 128 then some c.toNat else none

/-- A text in double quotes, first character first (R9), and what follows the closing quote. -/
def quotedText : List Char → Option (List Nat × List Char)
  | '"' :: cs => go cs
  | _ => none
where
  /-- The characters up to the closing quote. -/
  go : List Char → Option (List Nat × List Char)
    | [] => none
    | '"' :: rest => some ([], rest)
    | c :: rest =>
      match quotedCode c, go rest with
      | some v, some (vs, r) => some (v :: vs, r)
      | _, _ => none

/-- The operand of PUT: a character in single quotes or a numeral (R56). -/
def putOperand : List Char → Option (Nat × List Char)
  | '\'' :: c :: '\'' :: rest => (quotedCode c).map fun v => (v, rest)
  | cs => (numeral (takeWord cs).1).map fun v => (v, (takeWord cs).2)

/-- The names of the status registers (R28). -/
def registerNumber (w : List Char) : Option Nat :=
  if w = ['S', 'T', 'A', 'T', 'U', 'S'] then some 0
  else if w = ['P', 'O', 'S'] then some 1
  else if w = ['O', 'L', 'E', 'N'] then some 2
  else if w = ['R', 'P', 'T', 'R'] then some 3
  else if w = ['E', 'R', 'R', 'P', 'O', 'S'] then some 4
  else if w = ['E', 'R', 'R', 'C', 'H', 'A', 'R'] then some 5
  else if w = ['C', 'A', 'P'] then some 6
  else numeral w

/-- A line with nothing after what was read. -/
def closeLine (l : Line) (rest : List Char) : Option Line := if atEnd rest then some l else none

/-- The line of a mnemonic in capitals and the text after it (R56, R57). -/
def lineOf (w rest : List Char) : Option Line :=
  let args := skipBlanks rest
  if w = ['P', 'U', 'T'] then
    match putOperand args with
    | some (c, r) => closeLine (.put c) r
    | none => none
  else if w = ['E', 'N', 'D'] then closeLine .endMsg rest
  else if w = ['P', 'O', 'P'] then closeLine .pop rest
  else if w = ['C', 'L', 'R'] then closeLine .clr rest
  else if w = ['R', 'S', 'R'] then
    match registerNumber (takeWord args).1 with
    | some n => closeLine (.rsr n) (takeWord args).2
    | none => none
  else if w = ['P', 'U', 'T', 'S'] then
    match quotedText args with
    | some (t, r) => closeLine (.puts t) r
    | none => none
  else if w = ['P', 'O', 'P', 'N'] then
    match numeral (takeWord args).1 with
    | some k => closeLine (.popn k) (takeWord args).2
    | none => none
  else if w = ['M', 'S', 'G'] then
    match quotedText args with
    | some (t, r) => closeLine (.msg t) r
    | none => none
  else if w = ['C', 'O', 'N', 'V'] then
    match quotedText args with
    | some (t, r) =>
      match skipBlanks r with
      | ',' :: r' =>
        match numeral (takeWord (skipBlanks r')).1 with
        | some k => closeLine (.conv t k) (takeWord (skipBlanks r')).2
        | none => none
      | _ => none
    | none => none
  else none

/-- The commands of one line of text: none for a line that holds at most a comment, no answer for a line that is not of
the forms of R56 and R57. -/
def assembleLine (cs : List Char) : Option (List Instr) :=
  if atEnd cs then some []
  else
    match lineOf (takeWord (skipBlanks cs)).1 (takeWord (skipBlanks cs)).2 with
    | some l => lineCommands l
    | none => none

/-- The commands of a stream, one line after another (R56). -/
def assemble : List (List Char) → Option (List Instr)
  | [] => some []
  | l :: ls =>
    match assembleLine l, assemble ls with
    | some is, some js => some (is ++ js)
    | _, _ => none

end Sys2Proof.Machine
end

