-- ==== Sys2Proof/Machine/Conversion.lean ====
section
/-! DEFINITION. The block's transformation as functions of a whole message: hex_decode, hex_encode, b64_encode and convert
(spec/40_hex_decode.md R77, R79, spec/41_base64_encode.md R89, spec/42_control_readout.md R101). The machine does not call them; it computes
them (R102). -/

namespace Sys2Proof.Machine

/-- Why and where a message fails (R77, R101, R105). -/
structure Failure where
  kind : MsgFault
  pos : Nat
  char : Byte
deriving DecidableEq, Repr

/-- The first character from index `i` on that is no hex digit (R77). -/
def firstNonDigit (i : Nat) : List Byte → Option Failure
  | [] => none
  | c :: cs =>
    match nib c with
    | none => some ⟨.invalidHexDigit, i, c⟩
    | some _ => firstNonDigit (i + 1) cs

/-- Nibbles joined two by two, the first of each pair in the high half (R40, R77). A last one alone forms no byte. -/
def pairUp : List Nibble → List Byte
  | h :: l :: rest => pair h l :: pairUp rest
  | [_] => []
  | [] => []

/-- `hex_decode` (R77): a digit failure precedes a length failure, and the first bad character is reported. -/
def hexDecode (text : List Byte) : Except Failure (List Byte) :=
  match firstNonDigit 0 text with
  | some f => .error f
  | none =>
    if text.length % 2 = 1 then .error ⟨.invalidHexLength, text.length, 0x00#8⟩
    else .ok (pairUp (text.filterMap nib))

/-- `hex_encode` (R79): the two lower-case digits of each byte, high nibble first. -/
def hexEncode : List Byte → List Byte
  | [] => []
  | b :: bs => hexDigit (b.extractLsb' 4 4) :: hexDigit (b.extractLsb' 0 4) :: hexEncode bs

/-- The number of groups of `n` bytes, `ceil(n / 3)` (R89). -/
def groupCount (n : Nat) : Nat := (n + 2) / 3

/-- The characters of the whole groups of a byte sequence, group after group. -/
def encodeGroups : List Byte → List Byte
  | a :: b :: c :: rest => (encGroup a b c).toList ++ encodeGroups rest
  | [_, _] => []
  | [_] => []
  | [] => []

/-- `b64_encode` (R89): zero bytes fill the last group, and every group gives four characters. -/
def b64Encode (bytes : List Byte) : List Byte :=
  encodeGroups (bytes ++ List.replicate (3 * groupCount bytes.length - bytes.length) 0x00#8)

/-- The first character from index `i` on at which a message stops: one beyond the capacity, or one that is no hex
digit; at one index the capacity comes first (R101, R109). -/
def firstStop (maxChars i : Nat) : List Byte → Option Failure
  | [] => none
  | c :: cs =>
    if i = maxChars then some ⟨.capacityExceeded, i, c⟩
    else
      match nib c with
      | none => some ⟨.invalidHexDigit, i, c⟩
      | some _ => firstStop maxChars (i + 1) cs

/-- `convert` (R101): what the block makes of a message. -/
def convert (p : Params) (text : List Byte) : Except Failure (List Byte) :=
  match firstStop p.maxChars 0 text with
  | some f => .error f
  | none =>
    if text.length % 2 = 1 then .error ⟨.invalidHexLength, text.length, 0x00#8⟩
    else
      match hexDecode text with
      | .error f => .error f
      | .ok bytes => .ok (b64Encode bytes)

end Sys2Proof.Machine
end

