-- ==== Sys2Proof/Safety.lean ====
section
/-! DEFINITION. What claims speak of: the invariants of the block (spec/10_state.md R31), runs of the machine from a state, and
the command sequences of a message (spec/42_control_readout.md R100, R102). -/

namespace Sys2Proof.Machine

/-! ## The invariants of R31 -/

/-- Nothing is recorded by a fault (R31(b), (c)). -/
def NoFaultRecorded (s : State) : Prop := s.errcode = none ∧ s.errpos = 0 ∧ s.errchar = 0

/-- R31(b), the phase RUN: the flags and counters follow from POS. -/
structure RunInv (s : State) : Prop where
  nibv : s.nibv = decide (s.pos.toNat % 2 = 1)
  gcnt : s.gcnt.val = s.pos.toNat / 2 % 3
  olen : s.olen.toNat = 4 * (s.pos.toNat / 6)
  pos_le : s.pos.toNat ≤ s.params.maxChars
  rptr : s.rptr = 0
  noFault : NoFaultRecorded s

/-- R31(c), the phase DONE: an even number of characters, the whole output present. -/
structure DoneInv (s : State) : Prop where
  pos_even : s.pos.toNat % 2 = 0
  nibv : s.nibv = false
  gcnt : s.gcnt = 0
  olen : s.olen.toNat = 4 * groupCount (s.pos.toNat / 2)
  rptr_le : s.rptr.toNat ≤ s.olen.toNat
  noFault : NoFaultRecorded s

/-- R31(d), the phase ERR: a fault recorded at POS, no output, no data waiting. -/
structure ErrInv (s : State) : Prop where
  errcode : s.errcode ≠ none
  olen : s.olen = 0
  rptr : s.rptr = 0
  nibv : s.nibv = false
  gcnt : s.gcnt = 0
  pos : s.pos = s.errpos
  oddLength : s.errcode = some .invalidHexLength → s.pos.toNat % 2 = 1 ∧ s.errchar = 0
  capacity : s.errcode = some .capacityExceeded → s.pos.toNat = s.params.maxChars

/-- R31(e), every phase: registers without live data hold 0; OBUF holds exactly the cells 0 to OLEN − 1 (R21), all of them
characters of the alphabet (R63); OLEN is a multiple of 4 and within the buffer. -/
structure DataInv (s : State) : Prop where
  nib : s.nibv = false → s.nib = 0
  b0 : s.gcnt = 0 → s.b0 = 0
  b1 : s.gcnt.val < 2 → s.b1 = 0
  cells : s.obuf.map Prod.fst = List.range s.olen.toNat
  alphabet : ∀ x ∈ s.obuf, x.2 ∈ base64Alphabet
  olen_mod : s.olen.toNat % 4 = 0
  olen_le : s.olen.toNat ≤ s.params.maxOut

/-- What R31 asks of the present phase. -/
def PhaseInv (s : State) : Prop :=
  match s.phase with
  | .run => RunInv s
  | .done => DoneInv s
  | .err => ErrInv s

/-- The invariants of R31. -/
structure MachineInv (s : State) : Prop where
  data : DataInv s
  phase : PhaseInv s

/-! ## Runs -/

/-- `n` steps of the machine. -/
def runSteps (n : Nat) (s : State) : Host.Outcome State Fault Refusal := Host.Core.run Sys2Proof.core n s

/-- A run of `n` steps is safe when the machine does not stop. -/
def SafeRun (n : Nat) (s : State) : Prop := ∃ t, runSteps n s = .next t

/-- Commands as the host's events. -/
def events (is : List Instr) : List Input := is.map fun i => .command (encode i)

/-- The instance `p` after reset, the host having these commands accepted next. -/
def start (p : Params) (is : List Instr) : State := { State.resetOf p with inputs := events is }

/-- The commands that give the block a whole message: a PUT per character, then END (R100, R102). -/
def messageOf (text : List Byte) : List Instr := text.map Instr.put ++ [.endMsg]

/-- Two states with the same architectural registers (R13) and the same parameter, whatever the host's side of the
ports: the listing of R13. -/
structure SameRegisters (s t : State) : Prop where
  params : s.params = t.params
  phase : s.phase = t.phase
  pos : s.pos = t.pos
  nib : s.nib = t.nib
  nibv : s.nibv = t.nibv
  b0 : s.b0 = t.b0
  b1 : s.b1 = t.b1
  gcnt : s.gcnt = t.gcnt
  obuf : s.obuf = t.obuf
  olen : s.olen = t.olen
  rptr : s.rptr = t.rptr
  errcode : s.errcode = t.errcode
  errpos : s.errpos = t.errpos
  errchar : s.errchar = t.errchar

end Sys2Proof.Machine
end

