-- ==== Sys2Proof/Certificates/Slice0/Obligations.lean ====
section
/-! DEFINITION. What is claimed of the model, one statement per definition; OBLIGATIONS.json lists them with the rules they formalise. -/

open Sys2Proof Sys2Proof.Machine

/-! ## Encoding and decoding -/

/-- R51, R52: words written out bit by bit from the format `op ‖ imm` decode to their commands, and the all-zero word to none. -/
def Obligations.WrittenOutWordsDecode : Prop :=
  decode 0b000100110100#12 = .ok (.put 0x34#8) ∧
  decode 0b000111111111#12 = .ok (.put 0xFF#8) ∧
  decode 0b001000000000#12 = .ok .endMsg ∧
  decode 0b001100000000#12 = .ok .pop ∧
  decode 0b010000000000#12 = .ok .clr ∧
  decode 0b010100000000#12 = .ok .rsrStatus ∧
  decode 0b010100000110#12 = .ok .rsrCap ∧
  decode 0b010100000111#12 = .error (.noSuchRegister 0x07#8) ∧
  decode 0b001000000001#12 = .error (.nonzeroImmediate 0x2#4 0x01#8) ∧
  decode 0b000000000000#12 = .error (.unassignedOpcode 0x0#4)

/-- Decoding and encoding agree on every word and every command, with every operand: no bit of an encoding is dropped. -/
def Obligations.DecodeAndEncodeAgree : Prop :=
  ∀ (w : Command) (i : Instr), decode w = .ok i ↔ w = encode i

/-- R52: the rows are told apart by mask and match; the decoder reads exactly the row a word selects, with `c = imm`. -/
def Obligations.DecodingFollowsTheOpcodeMap : Prop :=
  (∀ (w : Command), ∀ r ∈ opcodeTable, ∀ r' ∈ opcodeTable,
    w &&& r.mask = r.pattern → w &&& r'.mask = r'.pattern → r = r') ∧
  (∀ (w : Command), ∀ r ∈ opcodeTable, w &&& r.mask = r.pattern →
    ∃ i, decode w = .ok i ∧ i.mnemonic = r.mnemonic ∧ ∀ c, i = .put c → c.toNat = w.toNat % 256) ∧
  (∀ (w : Command) (i : Instr), decode w = .ok i →
    ∃ r ∈ opcodeTable, r.mnemonic = i.mnemonic ∧ w &&& r.mask = r.pattern) ∧
  (∀ r ∈ opcodeTable, 0x000#12 &&& r.mask ≠ r.pattern)

/-- R53, R115: the illegal words are those of the four groups, with 256, 765, 249 and 2560 words, 3830 of the 4096; each, in
every state, changes nothing and is answered ILLEGAL. -/
def Obligations.IllegalWordsChangeNothing : Prop :=
  (∀ (w : Command), (∀ r ∈ opcodeTable, w &&& r.mask ≠ r.pattern) ↔
    (w.toNat / 256 = 0 ∨
      ((w.toNat / 256 = 2 ∨ w.toNat / 256 = 3 ∨ w.toNat / 256 = 4) ∧ w.toNat % 256 ≠ 0) ∨
      (w.toNat / 256 = 5 ∧ 7 ≤ w.toNat % 256) ∨
      6 ≤ w.toNat / 256)) ∧
  (List.range 4096).countP (fun n => decide (n / 256 = 0)) = 256 ∧
  (List.range 4096).countP (fun n => decide (2 ≤ n / 256 ∧ n / 256 ≤ 4 ∧ n % 256 ≠ 0)) = 765 ∧
  (List.range 4096).countP (fun n => decide (n / 256 = 5 ∧ 7 ≤ n % 256)) = 249 ∧
  (List.range 4096).countP (fun n => decide (6 ≤ n / 256)) = 2560 ∧
  (List.range 4096).countP (fun n => legalWord (BitVec.ofNat 12 n)) = 266 ∧
  (List.range 4096).countP (fun n => !legalWord (BitVec.ofNat 12 n)) = 3830 ∧
  (∀ (s : State) (w : Command) (rest : List Input), s.inputs = .command w :: rest →
    (∀ r ∈ opcodeTable, w &&& r.mask ≠ r.pattern) →
    step s = .next { s with inputs := rest, responses := s.responses ++ [⟨.illegal, 0⟩] })

/-- R57: the expansions of the four pseudo-commands, whatever the text. -/
def Obligations.PseudoCommandsExpand : Prop :=
  ∀ (text : List Nat) (k : Nat), (∀ c ∈ text, c < 256) →
    lineCommands (.puts text) = some (text.map fun c => .put (BitVec.ofNat 8 c)) ∧
    lineCommands (.popn k) = some (List.replicate k .pop) ∧
    lineCommands (.msg text) = some ([.clr] ++ (text.map fun c => .put (BitVec.ofNat 8 c)) ++ [.endMsg]) ∧
    lineCommands (.conv text k) =
      some ([.clr] ++ (text.map fun c => .put (BitVec.ofNat 8 c)) ++ [.endMsg] ++ List.replicate k .pop)

/-! ## The step -/

/-- A step takes the host's next command word, and is `exec` of the command the word stands for, in the state with that
word taken (R46, R52). -/
def Obligations.StepRunsTheDecodedCommand : Prop :=
  ∀ (s : State) (w : Command) (rest : List Input) (i : Instr),
    s.inputs = .command w :: rest → decode w = .ok i → step s = exec i { s with inputs := rest }

/-- The word the host places is the one the next step runs (the model's own interface, log entries 2 and 10). -/
def Obligations.FetchedWordRunsNext : Prop :=
  ∀ (s : State) (i : Instr) (nbits : Nat), 12 ≤ nbits →
    decodeTableWord nbits (encode i).toNat = some i ∧
    step (s.withFetchWord nbits (encode i).toNat) = exec i s

/-- With no event from the host the block holds its state (R122, R124; the model's choice of what such a step is, log
entry 3). -/
def Obligations.StepWithoutEventHoldsState : Prop :=
  ∀ (s : State), s.inputs = [] → step s = .next s

/-- R123: the reset event replaces every register by its reset value, in any state; it gives no response. That the
responses already given stay on record is the model's choice (log entry 4). -/
def Obligations.ResetEventReplacesTheRegisters : Prop :=
  ∀ (s : State) (rest : List Input), s.inputs = .reset :: rest →
    step s = .next { State.resetOf s.params with inputs := rest, responses := s.responses }

/-- R50, R134: every accepted command is answered, by exactly one response, after those of the commands before it; the
parameter and the host's later events are untouched. Premise: the invariants of R31. -/
def Obligations.EveryCommandGetsOneResponse : Prop :=
  ∀ (s : State) (w : Command) (rest : List Input), MachineInv s → s.inputs = .command w :: rest →
    ∃ t r, step s = .next t ∧ t.responses = s.responses ++ [r] ∧ t.inputs = rest ∧ t.params = s.params

/-- R55: which responses each command can give, the data of each, and that REFUSED and ILLEGAL change no state. -/
def Obligations.ResponsesFollowTheTable : Prop :=
  (∀ (i : Instr) (s t : State), exec i s = .next t →
    ∃ r, t.responses = s.responses ++ [r] ∧
      (r.status = .refused → t = { s with responses := s.responses ++ [r] }) ∧
      match i with
      | .put _ =>
        r = ⟨.ok, 0⟩ ∨ r = ⟨.refused, 0⟩ ∨
          (t.phase = .err ∧ t.errcode = some .invalidHexDigit ∧ r = ⟨.fault, 1⟩) ∨
          (t.phase = .err ∧ t.errcode = some .capacityExceeded ∧ r = ⟨.fault, 3⟩)
      | .endMsg =>
        r = ⟨.ok, t.olen⟩ ∨ r = ⟨.refused, 0⟩ ∨
          (t.phase = .err ∧ t.errcode = some .invalidHexLength ∧ r = ⟨.fault, 2⟩)
      | .pop =>
        (∃ v, Memory.read s.obuf s.rptr.toNat = some v ∧ r = ⟨.ok, zext32 v⟩) ∨ r = ⟨.refused, 0⟩
      | .clr => r = ⟨.ok, 0⟩
      | .rsrStatus => r = ⟨.ok, srValue .status s⟩
      | .rsrPos => r = ⟨.ok, srValue .pos s⟩
      | .rsrOlen => r = ⟨.ok, srValue .olen s⟩
      | .rsrRptr => r = ⟨.ok, srValue .rptr s⟩
      | .rsrErrpos => r = ⟨.ok, srValue .errpos s⟩
      | .rsrErrchar => r = ⟨.ok, srValue .errchar s⟩
      | .rsrCap => r = ⟨.ok, srValue .cap s⟩) ∧
  (∀ (s : State) (w : Command) (rest : List Input), s.inputs = .command w :: rest → legalWord w = false →
    step s = .next { s with inputs := rest, responses := s.responses ++ [⟨.illegal, 0⟩] }) ∧
  (RspStatus.code .ok = 0 ∧ RspStatus.code .fault = 1 ∧ RspStatus.code .refused = 2 ∧ RspStatus.code .illegal = 3)

/-! ## Reset -/

/-- R32: the value of every register after reset, for every instance, and after CLR in any state. -/
def Obligations.ResetValues : Prop :=
  ∀ (s : State), (s = State.reset ∨ (∃ p, s = State.resetOf p) ∨ ∃ u, exec .clr u = .next s) →
    s.phase = .run ∧ s.pos = 0 ∧ s.nib = 0 ∧ s.nibv = false ∧ s.b0 = 0x00#8 ∧ s.b1 = 0x00#8 ∧ s.gcnt = 0 ∧
    s.olen = 0 ∧ s.rptr = 0 ∧ (∀ i, Memory.read s.obuf i = none) ∧
    s.errcode = none ∧ s.errpos = 0 ∧ s.errchar = 0x00#8

/-- R34: the two level outputs mirror PHASE, are never both 1, and change only with it. -/
def Obligations.LevelOutputsMirrorPhase : Prop :=
  (∀ (s : State), (doneOut s = true ↔ s.phase = .done) ∧ (errOut s = true ↔ s.phase = .err) ∧
    ¬(doneOut s = true ∧ errOut s = true)) ∧
  (∀ (s t : State), s.phase = t.phase → doneOut s = doneOut t ∧ errOut s = errOut t) ∧
  (∀ (p : Params), doneOut (State.resetOf p) = false ∧ errOut (State.resetOf p) = false)

/-! ## PUT -/

/-- R59, R60, R71: the lookup gives the table's nibble for the 16 digits and nothing for the other 240 codes, upper case
among them; and its arithmetic form. -/
def Obligations.NibbleLookupIsTheDigitTable : Prop :=
  (∀ (c : Byte) (n : Nibble), nib c = some n ↔ (c, n) ∈ hexDigitTable) ∧
  (∀ (c : Byte), nib c = none ↔ ¬((0x30 ≤ c.toNat ∧ c.toNat ≤ 0x39) ∨ (0x61 ≤ c.toNat ∧ c.toNat ≤ 0x66))) ∧
  (∀ (c : Byte), 0x30 ≤ c.toNat → c.toNat ≤ 0x39 → (nib c).map BitVec.toNat = some (c.toNat - 0x30)) ∧
  (∀ (c : Byte), 0x61 ≤ c.toNat → c.toNat ≤ 0x66 → (nib c).map BitVec.toNat = some (c.toNat - 0x61 + 10)) ∧
  (List.range 256).countP (fun c => (nib (BitVec.ofNat 8 c)).isSome) = 16

/-- R74 steps 4 to 6, first digit of a pair: it waits in NIB; POS advances; all else is unchanged. -/
def Obligations.PutFirstDigitWaits : Prop :=
  ∀ (s : State) (c : Byte) (n : Nibble),
    s.phase = .run → s.pos.toNat ≠ 6 * s.params.maxGroups → (c, n) ∈ hexDigitTable → s.nibv = false →
    exec (.put c) s = .next { s with
      nib := n, nibv := true, pos := s.pos + 1, responses := s.responses ++ [⟨.ok, 0⟩] }

/-- R74 step 4, R83: the second digit completes the byte `16 × NIB + n`; the first byte of a group waits in B0, the
second in B1; all else is unchanged. -/
def Obligations.PutSecondDigitKeepsTheByte : Prop :=
  ∀ (s : State) (c : Byte) (n : Nibble),
    s.phase = .run → s.pos.toNat ≠ 6 * s.params.maxGroups → (c, n) ∈ hexDigitTable → s.nibv = true →
    (s.gcnt = 0 → exec (.put c) s = .next { s with
      nib := 0, nibv := false, b0 := BitVec.ofNat 8 (16 * s.nib.toNat + n.toNat), gcnt := 1,
      pos := s.pos + 1, responses := s.responses ++ [⟨.ok, 0⟩] }) ∧
    (s.gcnt = 1 → exec (.put c) s = .next { s with
      nib := 0, nibv := false, b1 := BitVec.ofNat 8 (16 * s.nib.toNat + n.toNat), gcnt := 2,
      pos := s.pos + 1, responses := s.responses ++ [⟨.ok, 0⟩] })

/-- R74, R83, R86: the third byte of a group is encoded at once. The four characters lie at OLEN to OLEN + 3, every other
index of OBUF reads as before, and no register changes but NIB, NIBV, B0, B1, GCNT, OLEN, POS. -/
def Obligations.PutThirdByteAppendsItsGroup : Prop :=
  ∀ (s : State) (c : Byte) (n : Nibble),
    s.phase = .run → s.pos.toNat ≠ 6 * s.params.maxGroups → (c, n) ∈ hexDigitTable → s.nibv = true → s.gcnt = 2 →
    s.olen.toNat + 4 ≤ 4 * s.params.maxGroups →
    ∃ m, exec (.put c) s = .next { s with
        nib := 0, nibv := false, b0 := 0, b1 := 0, gcnt := 0, obuf := m, olen := s.olen + 4,
        pos := s.pos + 1, responses := s.responses ++ [⟨.ok, 0⟩] } ∧
      (∀ k < 4, Memory.read m (s.olen.toNat + k) =
        (encGroup s.b0 s.b1 (BitVec.ofNat 8 (16 * s.nib.toNat + n.toNat))).toList[k]?) ∧
      (∀ a, a < s.olen.toNat ∨ s.olen.toNat + 4 ≤ a → Memory.read m a = Memory.read s.obuf a)

/-- R106: a character that is no digit, the capacity not being reached, takes the fault entry with code 1, whether it is the first or
the second of its pair; it records its index and itself. -/
def Obligations.PutNonDigitRaisesInvalidHexDigit : Prop :=
  ∀ (s : State) (c : Byte), s.phase = .run → s.pos.toNat ≠ 6 * s.params.maxGroups →
    (∀ n, (c, n) ∉ hexDigitTable) →
    exec (.put c) s = .next (raiseFault .invalidHexDigit s.pos c s) ∧
    (raiseFault .invalidHexDigit s.pos c s).errcode = some .invalidHexDigit ∧
    (raiseFault .invalidHexDigit s.pos c s).errpos = s.pos ∧
    (raiseFault .invalidHexDigit s.pos c s).errchar = c ∧
    (raiseFault .invalidHexDigit s.pos c s).phase = .err ∧
    (raiseFault .invalidHexDigit s.pos c s).olen = 0 ∧
    MsgFault.code .invalidHexDigit = 1

/-- R108, R109: at MAX_CHARS characters every PUT takes the fault entry with code 3, whatever its character is. -/
def Obligations.PutBeyondCapacityRaisesCapacityExceeded : Prop :=
  ∀ (s : State) (c : Byte), s.phase = .run → s.pos.toNat = 6 * s.params.maxGroups →
    exec (.put c) s = .next (raiseFault .capacityExceeded s.pos c s) ∧
    (raiseFault .capacityExceeded s.pos c s).errpos.toNat = 6 * s.params.maxGroups ∧
    (raiseFault .capacityExceeded s.pos c s).errchar = c ∧
    (raiseFault .capacityExceeded s.pos c s).phase = .err ∧
    (raiseFault .capacityExceeded s.pos c s).olen = 0 ∧
    MsgFault.code .capacityExceeded = 3

/-! ## The fault entry -/

/-- R110: everything the fault entry writes, and that it writes nothing else; every fault of every command is this entry,
with POS as the position recorded. -/
def Obligations.FaultEntryWritesExactlyThis : Prop :=
  (∀ (f : MsgFault) (pos : Word32) (ch : Byte) (s : State),
    raiseFault f pos ch s = { s with
      errcode := some f, errpos := pos, errchar := ch, olen := 0, rptr := 0, obuf := [],
      nib := 0, nibv := false, b0 := 0, b1 := 0, gcnt := 0, phase := .err,
      responses := s.responses ++ [⟨.fault, match f with
        | .invalidHexDigit => 1
        | .invalidHexLength => 2
        | .capacityExceeded => 3⟩] } ∧
    errOut (raiseFault f pos ch s) = true) ∧
  (∀ (i : Instr) (s t : State), exec i s = .next t → s.phase ≠ .err → t.phase = .err →
    ∃ f ch, t = raiseFault f s.pos ch s)

/-! ## END -/

/-- R107: END with a nibble waiting takes the fault entry with code 2, recording the length and the character 0x00; the
length is odd wherever the invariants of R31 hold. -/
def Obligations.EndOnOddLengthRaisesInvalidHexLength : Prop :=
  ∀ (s : State), s.phase = .run → s.nibv = true →
    exec .endMsg s = .next (raiseFault .invalidHexLength s.pos 0x00#8 s) ∧
    (raiseFault .invalidHexLength s.pos 0x00#8 s).errpos = s.pos ∧
    (raiseFault .invalidHexLength s.pos 0x00#8 s).errchar = 0x00#8 ∧
    (raiseFault .invalidHexLength s.pos 0x00#8 s).phase = .err ∧
    (raiseFault .invalidHexLength s.pos 0x00#8 s).olen = 0 ∧
    MsgFault.code .invalidHexLength = 2 ∧
    (MachineInv s → s.pos.toNat % 2 = 1)

/-- R90 with no byte waiting: nothing is appended; the phase becomes DONE and the response is OLEN. -/
def Obligations.EndOnWholeGroupsReleasesTheOutput : Prop :=
  ∀ (s : State), s.phase = .run → s.nibv = false → s.gcnt = 0 →
    exec .endMsg s = .next { s with
      b0 := 0, b1 := 0, phase := .done, responses := s.responses ++ [⟨.ok, s.olen⟩] }

/-- R87, R90 with one or two bytes waiting: the missing bytes are zero; the four characters lie at OLEN to OLEN + 3, every
other index reads as before, and the response is the new OLEN. -/
def Obligations.EndFlushesTheShortGroup : Prop :=
  ∀ (s : State), s.phase = .run → s.nibv = false → s.gcnt ≠ 0 → s.olen.toNat + 4 ≤ 4 * s.params.maxGroups →
    ∃ m, exec .endMsg s = .next { s with
        b0 := 0, b1 := 0, gcnt := 0, obuf := m, olen := s.olen + 4, phase := .done,
        responses := s.responses ++ [⟨.ok, s.olen + 4⟩] } ∧
      (s.gcnt = 1 → ∀ k < 4,
        Memory.read m (s.olen.toNat + k) = (encGroup s.b0 0x00#8 0x00#8).toList[k]?) ∧
      (s.gcnt = 2 → ∀ k < 4,
        Memory.read m (s.olen.toNat + k) = (encGroup s.b0 s.b1 0x00#8).toList[k]?) ∧
      (∀ a, a < s.olen.toNat ∨ s.olen.toNat + 4 ≤ a → Memory.read m a = Memory.read s.obuf a)

/-- R37, R86, R91(g): wherever the rules append a group, the buffer has room for it. Premise: the invariants of R31. -/
def Obligations.AppendAlwaysFits : Prop :=
  ∀ (s : State), MachineInv s → s.phase = .run → s.gcnt ≠ 0 → s.pos.toNat ≠ s.params.maxChars ∨ s.nibv = false →
    s.olen.toNat + 4 ≤ s.params.maxOut

/-! ## POP, CLR, RSR and refusals -/

/-- R95: POP in DONE with something left returns the character at RPTR, zero-extended, and writes RPTR only. -/
def Obligations.PopReturnsTheNextCharacter : Prop :=
  ∀ (s : State) (v : Byte), s.phase = .done → s.rptr ≠ s.olen → Memory.read s.obuf s.rptr.toNat = some v →
    exec .pop s = .next { s with rptr := s.rptr + 1, responses := s.responses ++ [⟨.ok, zext32 v⟩] }

/-- R95 under the invariants of R31: with RPTR < OLEN the cell is there, its character is of the alphabet, and POP
returns it. -/
def Obligations.PopAlwaysHasItsCharacter : Prop :=
  ∀ (s : State), MachineInv s → s.phase = .done → s.rptr.toNat < s.olen.toNat →
    ∃ v, Memory.read s.obuf s.rptr.toNat = some v ∧ v ∈ base64Alphabet ∧
      exec .pop s = .next { s with rptr := s.rptr + 1, responses := s.responses ++ [⟨.ok, zext32 v⟩] }

/-- R96: CLR gives the reset state from any state and answers OK. That the responses already given stay on record and the
host's events stay pending is the model's choice (log entries 4 and 2). -/
def Obligations.ClrGivesTheResetState : Prop :=
  ∀ (s : State),
    exec .clr s = .next { State.resetOf s.params with
      inputs := s.inputs, responses := s.responses ++ [⟨.ok, 0⟩] }

/-- R97, R28, R30: each RSR answers the value of its register in every state and writes nothing; numbers from 7 on are
illegal; RSR CAP gives MAX_GROUPS always; with the invariants of R31, OLEN is a multiple of 4, and in ERR POS is ERRPOS. -/
def Obligations.RsrReadsItsRegister : Prop :=
  (∀ (s : State) (i : Instr) (n : Nat) (v : Word32),
    (i, n, v) ∈ ([
      (.rsrStatus, 0, statusWord s),
      (.rsrPos, 1, s.pos),
      (.rsrOlen, 2, s.olen),
      (.rsrRptr, 3, s.rptr),
      (.rsrErrpos, 4, s.errpos),
      (.rsrErrchar, 5, BitVec.ofNat 32 s.errchar.toNat),
      (.rsrCap, 6, BitVec.ofNat 32 s.params.maxGroups)] : List (Instr × Nat × Word32)) →
    decode (BitVec.ofNat 12 (0x500 + n)) = .ok i ∧
    exec i s = .next { s with responses := s.responses ++ [⟨.ok, v⟩] }) ∧
  (∀ (n : Nat), 7 ≤ n → n < 256 → ∃ e, decode (BitVec.ofNat 12 (0x500 + n)) = .error e) ∧
  (∀ (s : State), (BitVec.ofNat 32 s.params.maxGroups : Word32).toNat = s.params.maxGroups) ∧
  (∀ (s : State), MachineInv s → s.olen.toNat % 4 = 0) ∧
  (∀ (s : State), MachineInv s → s.phase = .err → s.pos = s.errpos)

/-- R29: the fields of STATUS, zero above them, and the only values a program can read. -/
def Obligations.StatusFieldsAndValues : Prop :=
  (∀ (s : State), (statusWord s).toNat =
    s.gcnt.val * 32 + (if s.nibv then 16 else 0) +
    (match s.errcode with
      | none => 0
      | some .invalidHexDigit => 4
      | some .invalidHexLength => 8
      | some .capacityExceeded => 12) +
    (match s.phase with
      | .run => 0
      | .done => 1
      | .err => 2)) ∧
  (∀ (s : State), MachineInv s →
    (s.phase = .run → (statusWord s).toNat = (if s.nibv then 0x10 else 0) + 0x20 * s.gcnt.val) ∧
    (s.phase = .done → statusWord s = 0x01) ∧
    (s.phase = .err → statusWord s = 0x06 ∨ statusWord s = 0x0A ∨ statusWord s = 0x0E))

/-- R114: a command the phase does not allow changes nothing and is answered REFUSED. -/
def Obligations.RefusedCommandsChangeNothing : Prop :=
  ∀ (s : State) (i : Instr),
    ((∃ c, i = .put c) ∧ s.phase ≠ .run) ∨ (i = .endMsg ∧ s.phase ≠ .run) ∨ (i = .pop ∧ s.phase ≠ .done) ∨
      (i = .pop ∧ s.phase = .done ∧ s.rptr = s.olen) →
    exec i s = .next { s with responses := s.responses ++ [⟨.refused, 0⟩] }

/-- R94: a legal command is refused exactly where the table of phases says so; a refused one changes no state. -/
def Obligations.RefusedExactlyByThePhaseTable : Prop :=
  ∀ (s : State) (i : Instr), MachineInv s →
    ∃ t r, exec i s = .next t ∧ t.responses = s.responses ++ [r] ∧
      (r.status = .refused ↔
        match i with
        | .put _ => s.phase ≠ .run
        | .endMsg => s.phase ≠ .run
        | .pop => ¬(s.phase = .done ∧ s.rptr.toNat < s.olen.toNat)
        | .clr => False
        | .rsrStatus => False
        | .rsrPos => False
        | .rsrOlen => False
        | .rsrRptr => False
        | .rsrErrpos => False
        | .rsrErrchar => False
        | .rsrCap => False) ∧
      (r.status = .refused → t = { s with responses := s.responses ++ [⟨.refused, 0⟩] })

/-! ## The whole machine -/

/-- The invariants of R31 hold in the state after reset of log entry 1's instance. -/
def Obligations.ResetMeetsTheInvariants : Prop := MachineInv State.reset

/-- R31: the invariants hold after reset, for every instance, and every step keeps them, from every state that has them. -/
def Obligations.EveryStepKeepsTheInvariants : Prop :=
  (∀ (p : Params), MachineInv (State.resetOf p)) ∧
  (∀ (s t : State), MachineInv s → step s = .next t → MachineInv t)

/-- The canonical form of OBUF's cells is kept by every step, invariants or not. -/
def Obligations.EveryStepKeepsMemoryCanonical : Prop :=
  ∀ (s t : State), Memory.wf s.obuf → step s = .next t → Memory.wf t.obuf

/-- The block never stops, hangs or needs a reset: from a state with the invariants of R31 every run of any length goes on
(R110, R116, R127, R134). -/
def Obligations.MachineNeverStops : Prop :=
  ∀ (s : State) (n : Nat), MachineInv s → SafeRun n s

/-- R98: all transitions of PHASE. -/
def Obligations.PhaseTransitions : Prop :=
  ∀ (s t : State), step s = .next t →
    (s.inputs = [] → t.phase = s.phase) ∧
    (∀ rest, s.inputs = .reset :: rest → t.phase = .run) ∧
    (∀ w rest, s.inputs = .command w :: rest →
      (legalWord w = false → t.phase = s.phase) ∧
      (w = encode .clr → t.phase = .run) ∧
      (∀ c, w = encode (.put c) →
        (s.phase ≠ .run → t.phase = s.phase) ∧
        (s.phase = .run → s.pos.toNat = s.params.maxChars ∨ nib c = none → t.phase = .err) ∧
        (s.phase = .run → s.pos.toNat ≠ s.params.maxChars → nib c ≠ none → t.phase = .run)) ∧
      (w = encode .endMsg →
        (s.phase ≠ .run → t.phase = s.phase) ∧
        (s.phase = .run → s.nibv = true → t.phase = .err) ∧
        (s.phase = .run → s.nibv = false → t.phase = .done)) ∧
      (w = encode .pop → t.phase = s.phase) ∧
      (∀ i, w = encode i →
        i = .rsrStatus ∨ i = .rsrPos ∨ i = .rsrOlen ∨ i = .rsrRptr ∨ i = .rsrErrpos ∨ i = .rsrErrchar ∨ i = .rsrCap →
        t.phase = s.phase))

/-- R37: OBUF receives characters only four at a time, from enc_group, at its end, in RUN, within the buffer; a cell once
written stays until CLR, reset or a fault entry empties the buffer. -/
def Obligations.OutputBufferOnlyGrows : Prop :=
  ∀ (s t : State), MachineInv s → step s = .next t →
    t.obuf = s.obuf ∨
    (s.phase = .run ∧ (t.phase = .run ∨ t.phase = .done) ∧
      s.olen.toNat + 4 ≤ s.params.maxOut ∧ t.olen = s.olen + 4 ∧
      ∃ a b c, t.obuf.map Prod.snd = s.obuf.map Prod.snd ++ (encGroup a b c).toList) ∨
    (t.obuf = [] ∧
      ((∃ rest, s.inputs = .reset :: rest) ∨ (∃ rest, s.inputs = .command (encode .clr) :: rest) ∨
        (s.phase = .run ∧ t.phase = .err)))

/-- R112: in ERR, PUT, END and POP are refused and RSR works; through any commands but CLR, of any number, PHASE, the
fault status, POS and every other register keep their values. -/
def Obligations.ErrPhaseIsSticky : Prop :=
  (∀ (s : State), s.phase = .err →
    (∀ c, exec (.put c) s = .next { s with responses := s.responses ++ [⟨.refused, 0⟩] }) ∧
    exec .endMsg s = .next { s with responses := s.responses ++ [⟨.refused, 0⟩] } ∧
    exec .pop s = .next { s with responses := s.responses ++ [⟨.refused, 0⟩] } ∧
    exec .rsrStatus s = .next { s with responses := s.responses ++ [⟨.ok, statusWord s⟩] } ∧
    exec .rsrErrpos s = .next { s with responses := s.responses ++ [⟨.ok, s.errpos⟩] } ∧
    exec .rsrErrchar s = .next { s with responses := s.responses ++ [⟨.ok, zext32 s.errchar⟩] }) ∧
  (∀ (n : Nat) (s : State), s.phase = .err →
    (∀ e ∈ s.inputs, ∃ w, e = .command w ∧ w ≠ encode .clr) →
    ∃ t, runSteps n s = .next t ∧ SameRegisters s t)

/-- R38: while the phase is not DONE, no response depends on a character of the output, a waiting nibble or a waiting
byte: nothing of an incomplete or failed message's data leaves the block. -/
def Obligations.NoDataLeavesBeforeDone : Prop :=
  ∀ (i : Instr) (s t t' : State) (m : Memory) (n : Nibble) (x y : Byte), s.phase ≠ .done →
    exec i s = .next t → exec i { s with obuf := m, nib := n, b0 := x, b1 := y } = .next t' →
    t.responses = t'.responses ∧ t.phase = t'.phase

/-- R103: after CLR or a reset event, whatever came before, the responses and the registers depend only on the events that
follow and on MAX_GROUPS; and after DONE or ERR a PUT without CLR is refused. That the responses given before stay on
record over CLR and reset is the model's choice (log entry 4), and so is the list of events (log entry 2). -/
def Obligations.MessagesDoNotInfluenceOneAnother : Prop :=
  (∀ (s₁ s₂ : State) (e : Input) (es : List Input), s₁.params = s₂.params →
    e = .reset ∨ e = .command (encode .clr) →
    ∃ t₁ t₂ rs,
      runSteps (es.length + 1) { s₁ with inputs := e :: es } = .next t₁ ∧
      runSteps (es.length + 1) { s₂ with inputs := e :: es } = .next t₂ ∧
      t₁.responses = s₁.responses ++ rs ∧ t₂.responses = s₂.responses ++ rs ∧ SameRegisters t₁ t₂) ∧
  (∀ (s : State) (c : Byte), s.phase = .done ∨ s.phase = .err →
    exec (.put c) s = .next { s with responses := s.responses ++ [⟨.refused, 0⟩] })

/-- R102(a): the machine computes `convert`, where it gives a text: every PUT is answered OK, END gives the length, the
POPs give the text in order, and one more POP is refused. -/
def Obligations.MachineComputesConvert : Prop :=
  ∀ (p : Params) (text out : List Byte), convert p text = .ok out →
    (∃ u, runSteps (text.length + 1) (start p (messageOf text)) = .next u ∧
      u.phase = .done ∧ u.olen.toNat = out.length ∧
      u.responses = List.replicate text.length ⟨.ok, 0⟩ ++ [⟨.ok, BitVec.ofNat 32 out.length⟩]) ∧
    (∃ t, runSteps (text.length + 1 + (out.length + 1))
        (start p (messageOf text ++ List.replicate (out.length + 1) .pop)) = .next t ∧
      t.responses = List.replicate text.length ⟨.ok, 0⟩ ++ [⟨.ok, BitVec.ofNat 32 out.length⟩] ++
        out.map (fun c => ⟨.ok, zext32 c⟩) ++ [⟨.refused, 0⟩])

/-- R102(b): the machine reports the failure of `convert`: the commands before the faulting one are answered OK, it alone
is answered FAULT with the code, all after it and a POP are refused, and the fault status tells code, position and
character. -/
def Obligations.MachineReportsTheFailureOfConvert : Prop :=
  ∀ (p : Params) (text : List Byte) (f : Failure), convert p text = .error f →
    ∃ t, runSteps (text.length + 2) (start p (messageOf text ++ [.pop])) = .next t ∧
      t.responses = List.replicate f.pos ⟨.ok, 0⟩ ++ [⟨.fault, zext32 f.kind.code⟩] ++
        List.replicate (text.length + 1 - f.pos) ⟨.refused, 0⟩ ∧
      t.phase = .err ∧ t.errcode = some f.kind ∧ t.errpos.toNat = f.pos ∧ t.errchar = f.char ∧ t.olen = 0

/-! ## The transformation -/

/-- R73: a pair is `16 × h + l`, and every byte is the pair of exactly one `(h, l)`. -/
def Obligations.EveryByteIsOnePair : Prop :=
  (∀ (h l : Nibble), (pair h l).toNat = 16 * h.toNat + l.toNat) ∧
  (∀ (b : Byte), ∃ h l, pair h l = b ∧ ∀ h' l', pair h' l' = b → h' = h ∧ l' = l)

/-- R81, R82: the 24-bit word is big-endian, and its sextets are taken most significant first; each sextet in terms of the
bytes; the four hold all 24 bits. -/
def Obligations.SextetsOfAGroup : Prop :=
  (∀ (b0 b1 b2 : Byte), (word24 b0 b1 b2).toNat = 65536 * b0.toNat + 256 * b1.toNat + b2.toNat) ∧
  (∀ (w : Word24),
    (sextets w).c0.toNat = w.toNat / 2 ^ 18 % 64 ∧ (sextets w).c1.toNat = w.toNat / 2 ^ 12 % 64 ∧
    (sextets w).c2.toNat = w.toNat / 2 ^ 6 % 64 ∧ (sextets w).c3.toNat = w.toNat % 64) ∧
  (∀ (b0 b1 b2 : Byte),
    (sextets (word24 b0 b1 b2)).c0.toNat = b0.toNat / 4 ∧
    (sextets (word24 b0 b1 b2)).c1.toNat = b0.toNat % 4 * 16 + b1.toNat / 16 ∧
    (sextets (word24 b0 b1 b2)).c2.toNat = b1.toNat % 16 * 4 + b2.toNat / 64 ∧
    (sextets (word24 b0 b1 b2)).c3.toNat = b2.toNat % 64) ∧
  (∀ (w : Word24), (sextets w).c0 ++ (sextets w).c1 ++ (sextets w).c2 ++ (sextets w).c3 = w)

/-- R61, R62, R84, R85: the alphabet in arithmetic form is the table, is one-to-one, and a group gives the characters of its
four sextets in order. -/
def Obligations.AlphabetFormsAgree : Prop :=
  (∀ (v : Sextet), base64Alphabet[v.toNat]? = some (b64char v)) ∧
  (∀ (v : Sextet),
    (v.toNat ≤ 25 → (b64char v).toNat = 0x41 + v.toNat) ∧
    (26 ≤ v.toNat → v.toNat ≤ 51 → (b64char v).toNat = 0x61 + (v.toNat - 26)) ∧
    (52 ≤ v.toNat → v.toNat ≤ 61 → (b64char v).toNat = 0x30 + (v.toNat - 52)) ∧
    (v.toNat = 62 → (b64char v).toNat = 0x2B) ∧ (v.toNat = 63 → (b64char v).toNat = 0x2F)) ∧
  (∀ (v v' : Sextet), b64char v = b64char v' → v = v') ∧
  (∀ (b0 b1 b2 : Byte), (encGroup b0 b1 b2).toList =
    (sextets (word24 b0 b1 b2)).toList.map b64char)

/-- R63: in every run from reset, whatever the host does, OBUF holds characters of the alphabet only, never `=`; the
alphabet has 64 different characters; and no text of `convert` holds another. -/
def Obligations.OnlyAlphabetCharactersAppear : Prop :=
  (∀ (p : Params) (es : List Input) (n : Nat) (t : State),
    runSteps n { State.resetOf p with inputs := es } = .next t →
    ∀ x ∈ t.obuf, x.2 ∈ base64Alphabet ∧ x.2 ≠ 0x3D#8) ∧
  (base64Alphabet.length = 64 ∧ base64Alphabet.Nodup) ∧
  (∀ (p : Params) (text out : List Byte), convert p text = .ok out → ∀ c ∈ out, c ∈ base64Alphabet)

/-- R77: a message fails at its first character that is no digit, whatever follows; with digits only, it fails exactly when
its length is odd; the empty message gives no bytes. -/
def Obligations.HexDecodeReportsTheFirstDefect : Prop :=
  (∀ (good rest : List Byte) (c : Byte), (∀ d ∈ good, nib d ≠ none) → nib c = none →
    hexDecode (good ++ c :: rest) = .error ⟨.invalidHexDigit, good.length, c⟩) ∧
  (∀ (text : List Byte), (∀ d ∈ text, nib d ≠ none) →
    (text.length % 2 = 1 → hexDecode text = .error ⟨.invalidHexLength, text.length, 0x00#8⟩) ∧
    (text.length % 2 = 0 → ∃ bytes, hexDecode text = .ok bytes ∧ bytes.length = text.length / 2 ∧ ∀ k, k < bytes.length →
      ∃ h l c d, text[2 * k]? = some c ∧ text[2 * k + 1]? = some d ∧ nib c = some h ∧ nib d = some l ∧
        bytes[k]? = some (pair h l))) ∧
  hexDecode [] = .ok []

/-- R78: `2n` characters give `n` bytes, and every byte sequence of every length is some message's. -/
def Obligations.HexDecodeHalvesTheLength : Prop :=
  (∀ (text bytes : List Byte), hexDecode text = .ok bytes → text.length = 2 * bytes.length) ∧
  (∀ (bytes : List Byte), ∃ text, hexDecode text = .ok bytes)

/-- R79: hex-encode then hex-decode is the identity on every byte sequence. -/
def Obligations.HexRoundTrip : Prop :=
  ∀ (bytes : List Byte), hexDecode (hexEncode bytes) = .ok bytes

/-- R87: a short final group is encoded with zero bytes in the missing places and still gives four characters, the last
ones `A`; the last real sextet's fill bits are zero; the rule's two examples. -/
def Obligations.ShortFinalGroupIsZeroFilled : Prop :=
  ∀ (whole : List Byte) (b0 b1 : Byte), whole.length % 3 = 0 →
    b64Encode (whole ++ [b0]) = b64Encode whole ++ (encGroup b0 0x00#8 0x00#8).toList ∧
    b64Encode (whole ++ [b0, b1]) = b64Encode whole ++ (encGroup b0 b1 0x00#8).toList ∧
    (encGroup b0 0x00#8 0x00#8).c2 = 0x41#8 ∧ (encGroup b0 0x00#8 0x00#8).c3 = 0x41#8 ∧
    (encGroup b0 b1 0x00#8).c3 = 0x41#8 ∧
    (sextets (word24 b0 0x00#8 0x00#8)).c1.toNat % 16 = 0 ∧ (sextets (word24 b0 b1 0x00#8)).c2.toNat % 4 = 0 ∧
    (encGroup 0x49#8 0x00#8 0x00#8).toList = [0x53#8, 0x51#8, 0x41#8, 0x41#8] ∧
    (encGroup 0x49#8 0x27#8 0x00#8).toList = [0x53#8, 0x53#8, 0x63#8, 0x41#8]

/-- R92: `2n` characters give `n` bytes and `4 × ceil(n / 3)` output characters, a multiple of four; in the machine, END
leaves OLEN so. -/
def Obligations.OutputLengthLaw : Prop :=
  (∀ (p : Params) (text out : List Byte), convert p text = .ok out →
    ∃ bytes, hexDecode text = .ok bytes ∧ text.length = 2 * bytes.length ∧
      out.length = 4 * ((bytes.length + 2) / 3) ∧ out.length % 4 = 0) ∧
  (∀ (s t : State), MachineInv s → s.phase = .run → exec .endMsg s = .next t → t.phase = .done →
    t.olen.toNat = 4 * ((t.pos.toNat / 2 + 2) / 3))

/-- R101: within the capacity, `convert` is the source's composition of the decoder and the encoder, failures passing
unchanged; beyond it, digits up to MAX_CHARS give CapacityExceeded at MAX_CHARS. -/
def Obligations.ConvertIsTheSourcesComposition : Prop :=
  (∀ (p : Params) (text : List Byte), text.length ≤ p.maxChars →
    convert p text = match hexDecode text with
      | .error f => .error f
      | .ok bytes => .ok (b64Encode bytes)) ∧
  (∀ (p : Params) (digits rest : List Byte) (c : Byte), digits.length = p.maxChars → (∀ d ∈ digits, nib d ≠ none) →
    convert p (digits ++ c :: rest) = .error ⟨.capacityExceeded, p.maxChars, c⟩)
end

