-- ==== Sys2Proof/Laws/Memory.lean ====
section
/-! SUPPORT. The laws of the output buffer's cells: read after write, the canonical form, and the sequence form of a buffer
whose cells are 0 to n − 1. -/

namespace Sys2Proof.Machine

@[simp] theorem Memory.read_nil (i : Nat) : Memory.read [] i = none := rfl

/-- A read after a write to the same index gives the value written. -/
@[simp] theorem Memory.read_write_same (m : Memory) (i : Nat) (v : Byte) : Memory.read (Memory.write m i v) i = some v := by
  induction m with
  | nil => simp [Memory.write, Memory.read]
  | cons x m ih =>
    unfold Memory.write
    split
    · simp [Memory.read]
    · split
      · simp [Memory.read]
      · next h => simp [Memory.read, ih, Ne.symm h]

/-- A write leaves every other index alone. -/
theorem Memory.read_write_other (m : Memory) {i j : Nat} (v : Byte) (h : j ≠ i) :
    Memory.read (Memory.write m i v) j = Memory.read m j := by
  induction m with
  | nil => simp [Memory.write, Memory.read, h.symm, Memory.unlisted]
  | cons x m ih =>
    unfold Memory.write
    split
    · simp [Memory.read, h.symm]
    · split
      · next hx => simp [Memory.read, h.symm, ← hx]
      · simp [Memory.read, ih]

/-- The indices a write leaves: the old ones and the one written. -/
theorem Memory.mem_write {m : Memory} {i : Nat} {v : Byte} {x : Host.Cell} (h : x ∈ Memory.write m i v) :
    x = (i, v) ∨ x ∈ m := by
  induction m with
  | nil => simpa [Memory.write] using h
  | cons y m ih =>
    unfold Memory.write at h
    split at h
    · simpa using h
    · split at h
      · rcases List.mem_cons.1 h with h | h
        · exact .inl h
        · exact .inr (List.mem_cons_of_mem _ h)
      · rcases List.mem_cons.1 h with h | h
        · exact .inr (h ▸ List.mem_cons_self)
        · exact (ih h).imp id (List.mem_cons_of_mem _)

theorem Memory.write_sorted {m : Memory} (i : Nat) (v : Byte) (h : m.Pairwise (fun x y => x.1 < y.1)) :
    (Memory.write m i v).Pairwise (fun x y => x.1 < y.1) := by
  induction m with
  | nil => simp [Memory.write]
  | cons x m ih =>
    have hx := (List.pairwise_cons.1 h).1
    have hm := (List.pairwise_cons.1 h).2
    unfold Memory.write
    split
    · next hi =>
      refine List.pairwise_cons.2 ⟨fun y hy => ?_, h⟩
      rcases List.mem_cons.1 hy with rfl | hy
      · exact hi
      · exact hi.trans (hx y hy)
    · split
      · next _ he => exact List.pairwise_cons.2 ⟨fun y hy => he ▸ hx y hy, hm⟩
      · next h1 h2 =>
        refine List.pairwise_cons.2 ⟨fun y hy => ?_, ih hm⟩
        rcases Memory.mem_write hy with rfl | hy
        · show x.1 < i
          omega
        · exact hx y hy

/-- Every cell is different from what an unlisted index reads as, since that is no value. -/
theorem Memory.listed (v : Byte) : some v ≠ Memory.unlisted := by simp [Memory.unlisted]

@[simp] theorem Memory.wf_nil : Memory.wf [] := ⟨List.Pairwise.nil, by simp⟩

/-- A write keeps the canonical form. -/
theorem Memory.write_wf {m : Memory} (i : Nat) (v : Byte) (h : Memory.wf m) : Memory.wf (Memory.write m i v) :=
  ⟨Memory.write_sorted i v h.1, fun x _ => Memory.listed x.2⟩

/-- Successive writes keep the canonical form. -/
theorem Memory.writeFrom_wf {m : Memory} (i : Nat) (vs : List Byte) (h : Memory.wf m) :
    Memory.wf (Memory.writeFrom m i vs) := by
  induction vs generalizing m i with
  | nil => exact h
  | cons v vs ih => exact ih (i + 1) (Memory.write_wf i v h)

/-- Successive writes leave every index outside theirs alone. -/
theorem Memory.read_writeFrom_outside (m : Memory) (i : Nat) (vs : List Byte) {j : Nat}
    (h : j < i ∨ i + vs.length ≤ j) : Memory.read (Memory.writeFrom m i vs) j = Memory.read m j := by
  induction vs generalizing m i with
  | nil => rfl
  | cons v vs ih =>
    have hj : j ≠ i := by simp only [List.length_cons] at h; omega
    rw [Memory.writeFrom, ih _ _ (by simp only [List.length_cons] at h; omega), Memory.read_write_other _ _ hj]

/-- Successive writes are read back in order. -/
theorem Memory.read_writeFrom_inside (m : Memory) (i : Nat) (vs : List Byte) {k : Nat} (h : k < vs.length) :
    Memory.read (Memory.writeFrom m i vs) (i + k) = vs[k]? := by
  induction vs generalizing m i k with
  | nil => simp at h
  | cons v vs ih =>
    cases k with
    | zero =>
      rw [Memory.writeFrom, Memory.read_writeFrom_outside _ _ _ (by omega)]
      simp
    | succ k =>
      have := ih (Memory.write m i v) (i + 1) (k := k) (by simpa using h)
      rw [Memory.writeFrom, show i + (k + 1) = i + 1 + k by omega, this]
      simp

/-! ## The sequence form: cells exactly 0 to n − 1 (R21) -/

/-- A write beyond every listed index goes to the end. -/
theorem Memory.write_at_end (m : Memory) (i : Nat) (v : Byte) (h : ∀ x ∈ m, x.1 < i) :
    Memory.write m i v = m ++ [(i, v)] := by
  induction m with
  | nil => rfl
  | cons x m ih =>
    have hx : x.1 < i := h x List.mem_cons_self
    rw [Memory.write, if_neg (by omega), if_neg (by omega), ih fun y hy => h y (List.mem_cons_of_mem _ hy)]
    rfl

/-- The index of a cell is below `n` when the indices are 0 to n − 1. -/
theorem Memory.index_lt {m : Memory} {n : Nat} (h : m.map Prod.fst = List.range n) {x : Host.Cell} (hx : x ∈ m) :
    x.1 < n := List.mem_range.1 (h ▸ List.mem_map_of_mem hx)

/-- Cells 0 to n − 1, then successive writes from `n` on: the values are appended. -/
theorem Memory.writeFrom_appends {m : Memory} {n : Nat} (h : m.map Prod.fst = List.range n) (vs : List Byte) :
    (Memory.writeFrom m n vs).map Prod.fst = List.range (n + vs.length) ∧
    (Memory.writeFrom m n vs).map Prod.snd = m.map Prod.snd ++ vs := by
  induction vs generalizing m n with
  | nil => simpa [Memory.writeFrom] using h
  | cons v vs ih =>
    have hw := Memory.write_at_end m n v fun x hx => Memory.index_lt h hx
    have h' : (m ++ [(n, v)]).map Prod.fst = List.range (n + 1) := by simp [h, List.range_succ]
    have := ih h'
    rw [Memory.writeFrom, hw]
    refine ⟨?_, ?_⟩
    · rw [this.1, List.length_cons, Nat.add_comm vs.length 1, Nat.add_assoc]
    · rw [this.2]; simp

theorem Memory.read_shifted {m : Memory} {a n : Nat} (h : m.map Prod.fst = List.range' a n) (k : Nat) :
    Memory.read m (a + k) = (m.map Prod.snd)[k]? := by
  induction m generalizing a n k with
  | nil => simp
  | cons x m ih =>
    cases n with
    | zero => simp at h
    | succ n =>
      rw [List.map_cons, List.range'_succ, List.cons.injEq] at h
      cases k with
      | zero => simp [Memory.read, h.1]
      | succ k =>
        rw [Memory.read, if_neg (by omega), show a + (k + 1) = a + 1 + k by omega, ih h.2 k]
        simp

/-- A buffer whose cells are 0 to n − 1 reads as the sequence of its values. -/
theorem Memory.read_eq_sequence {m : Memory} {n : Nat} (h : m.map Prod.fst = List.range n) (i : Nat) :
    Memory.read m i = (m.map Prod.snd)[i]? := by
  have := Memory.read_shifted (a := 0) (n := n) (by rw [h, List.range_eq_range']) i
  simpa using this

end Sys2Proof.Machine
end

