-- ==== Sys2Proof/Laws/State.lean ====
section
/-! SUPPORT. One lemma per field per named update of the state, so that no proof unfolds a record update. -/

namespace Sys2Proof.Machine

/-! ## `respond` -/

@[simp] theorem respond_params (st : RspStatus) (d : Word32) (s : State) : (respond st d s).params = s.params := rfl
@[simp] theorem respond_phase (st : RspStatus) (d : Word32) (s : State) : (respond st d s).phase = s.phase := rfl
@[simp] theorem respond_pos (st : RspStatus) (d : Word32) (s : State) : (respond st d s).pos = s.pos := rfl
@[simp] theorem respond_nib (st : RspStatus) (d : Word32) (s : State) : (respond st d s).nib = s.nib := rfl
@[simp] theorem respond_nibv (st : RspStatus) (d : Word32) (s : State) : (respond st d s).nibv = s.nibv := rfl
@[simp] theorem respond_b0 (st : RspStatus) (d : Word32) (s : State) : (respond st d s).b0 = s.b0 := rfl
@[simp] theorem respond_b1 (st : RspStatus) (d : Word32) (s : State) : (respond st d s).b1 = s.b1 := rfl
@[simp] theorem respond_gcnt (st : RspStatus) (d : Word32) (s : State) : (respond st d s).gcnt = s.gcnt := rfl
@[simp] theorem respond_obuf (st : RspStatus) (d : Word32) (s : State) : (respond st d s).obuf = s.obuf := rfl
@[simp] theorem respond_olen (st : RspStatus) (d : Word32) (s : State) : (respond st d s).olen = s.olen := rfl
@[simp] theorem respond_rptr (st : RspStatus) (d : Word32) (s : State) : (respond st d s).rptr = s.rptr := rfl
@[simp] theorem respond_errcode (st : RspStatus) (d : Word32) (s : State) : (respond st d s).errcode = s.errcode := rfl
@[simp] theorem respond_errpos (st : RspStatus) (d : Word32) (s : State) : (respond st d s).errpos = s.errpos := rfl
@[simp] theorem respond_errchar (st : RspStatus) (d : Word32) (s : State) : (respond st d s).errchar = s.errchar := rfl
@[simp] theorem respond_inputs (st : RspStatus) (d : Word32) (s : State) : (respond st d s).inputs = s.inputs := rfl
@[simp] theorem respond_responses (st : RspStatus) (d : Word32) (s : State) : (respond st d s).responses = s.responses ++ [⟨st, d⟩] := rfl

/-! ## `refuse` -/

@[simp] theorem refuse_params (s : State) : (refuse s).params = s.params := rfl
@[simp] theorem refuse_phase (s : State) : (refuse s).phase = s.phase := rfl
@[simp] theorem refuse_pos (s : State) : (refuse s).pos = s.pos := rfl
@[simp] theorem refuse_nib (s : State) : (refuse s).nib = s.nib := rfl
@[simp] theorem refuse_nibv (s : State) : (refuse s).nibv = s.nibv := rfl
@[simp] theorem refuse_b0 (s : State) : (refuse s).b0 = s.b0 := rfl
@[simp] theorem refuse_b1 (s : State) : (refuse s).b1 = s.b1 := rfl
@[simp] theorem refuse_gcnt (s : State) : (refuse s).gcnt = s.gcnt := rfl
@[simp] theorem refuse_obuf (s : State) : (refuse s).obuf = s.obuf := rfl
@[simp] theorem refuse_olen (s : State) : (refuse s).olen = s.olen := rfl
@[simp] theorem refuse_rptr (s : State) : (refuse s).rptr = s.rptr := rfl
@[simp] theorem refuse_errcode (s : State) : (refuse s).errcode = s.errcode := rfl
@[simp] theorem refuse_errpos (s : State) : (refuse s).errpos = s.errpos := rfl
@[simp] theorem refuse_errchar (s : State) : (refuse s).errchar = s.errchar := rfl
@[simp] theorem refuse_inputs (s : State) : (refuse s).inputs = s.inputs := rfl
@[simp] theorem refuse_responses (s : State) : (refuse s).responses = s.responses ++ [⟨.refused, 0⟩] := rfl

/-! ## `illegal` -/

@[simp] theorem illegal_params (s : State) : (illegal s).params = s.params := rfl
@[simp] theorem illegal_phase (s : State) : (illegal s).phase = s.phase := rfl
@[simp] theorem illegal_pos (s : State) : (illegal s).pos = s.pos := rfl
@[simp] theorem illegal_nib (s : State) : (illegal s).nib = s.nib := rfl
@[simp] theorem illegal_nibv (s : State) : (illegal s).nibv = s.nibv := rfl
@[simp] theorem illegal_b0 (s : State) : (illegal s).b0 = s.b0 := rfl
@[simp] theorem illegal_b1 (s : State) : (illegal s).b1 = s.b1 := rfl
@[simp] theorem illegal_gcnt (s : State) : (illegal s).gcnt = s.gcnt := rfl
@[simp] theorem illegal_obuf (s : State) : (illegal s).obuf = s.obuf := rfl
@[simp] theorem illegal_olen (s : State) : (illegal s).olen = s.olen := rfl
@[simp] theorem illegal_rptr (s : State) : (illegal s).rptr = s.rptr := rfl
@[simp] theorem illegal_errcode (s : State) : (illegal s).errcode = s.errcode := rfl
@[simp] theorem illegal_errpos (s : State) : (illegal s).errpos = s.errpos := rfl
@[simp] theorem illegal_errchar (s : State) : (illegal s).errchar = s.errchar := rfl
@[simp] theorem illegal_inputs (s : State) : (illegal s).inputs = s.inputs := rfl
@[simp] theorem illegal_responses (s : State) : (illegal s).responses = s.responses ++ [⟨.illegal, 0⟩] := rfl

/-! ## `raiseFault` -/

@[simp] theorem raiseFault_params (f : MsgFault) (p : Word32) (ch : Byte) (s : State) : (raiseFault f p ch s).params = s.params := rfl
@[simp] theorem raiseFault_phase (f : MsgFault) (p : Word32) (ch : Byte) (s : State) : (raiseFault f p ch s).phase = .err := rfl
@[simp] theorem raiseFault_pos (f : MsgFault) (p : Word32) (ch : Byte) (s : State) : (raiseFault f p ch s).pos = s.pos := rfl
@[simp] theorem raiseFault_nib (f : MsgFault) (p : Word32) (ch : Byte) (s : State) : (raiseFault f p ch s).nib = 0 := rfl
@[simp] theorem raiseFault_nibv (f : MsgFault) (p : Word32) (ch : Byte) (s : State) : (raiseFault f p ch s).nibv = false := rfl
@[simp] theorem raiseFault_b0 (f : MsgFault) (p : Word32) (ch : Byte) (s : State) : (raiseFault f p ch s).b0 = 0 := rfl
@[simp] theorem raiseFault_b1 (f : MsgFault) (p : Word32) (ch : Byte) (s : State) : (raiseFault f p ch s).b1 = 0 := rfl
@[simp] theorem raiseFault_gcnt (f : MsgFault) (p : Word32) (ch : Byte) (s : State) : (raiseFault f p ch s).gcnt = 0 := rfl
@[simp] theorem raiseFault_obuf (f : MsgFault) (p : Word32) (ch : Byte) (s : State) : (raiseFault f p ch s).obuf = [] := rfl
@[simp] theorem raiseFault_olen (f : MsgFault) (p : Word32) (ch : Byte) (s : State) : (raiseFault f p ch s).olen = 0 := rfl
@[simp] theorem raiseFault_rptr (f : MsgFault) (p : Word32) (ch : Byte) (s : State) : (raiseFault f p ch s).rptr = 0 := rfl
@[simp] theorem raiseFault_errcode (f : MsgFault) (p : Word32) (ch : Byte) (s : State) : (raiseFault f p ch s).errcode = some f := rfl
@[simp] theorem raiseFault_errpos (f : MsgFault) (p : Word32) (ch : Byte) (s : State) : (raiseFault f p ch s).errpos = p := rfl
@[simp] theorem raiseFault_errchar (f : MsgFault) (p : Word32) (ch : Byte) (s : State) : (raiseFault f p ch s).errchar = ch := rfl
@[simp] theorem raiseFault_inputs (f : MsgFault) (p : Word32) (ch : Byte) (s : State) : (raiseFault f p ch s).inputs = s.inputs := rfl
@[simp] theorem raiseFault_responses (f : MsgFault) (p : Word32) (ch : Byte) (s : State) : (raiseFault f p ch s).responses = s.responses ++ [⟨.fault, zext32 f.code⟩] := rfl

/-! ## `clearState` -/

@[simp] theorem clearState_params (s : State) : (clearState s).params = s.params := rfl
@[simp] theorem clearState_phase (s : State) : (clearState s).phase = .run := rfl
@[simp] theorem clearState_pos (s : State) : (clearState s).pos = 0 := rfl
@[simp] theorem clearState_nib (s : State) : (clearState s).nib = 0 := rfl
@[simp] theorem clearState_nibv (s : State) : (clearState s).nibv = false := rfl
@[simp] theorem clearState_b0 (s : State) : (clearState s).b0 = 0 := rfl
@[simp] theorem clearState_b1 (s : State) : (clearState s).b1 = 0 := rfl
@[simp] theorem clearState_gcnt (s : State) : (clearState s).gcnt = 0 := rfl
@[simp] theorem clearState_obuf (s : State) : (clearState s).obuf = [] := rfl
@[simp] theorem clearState_olen (s : State) : (clearState s).olen = 0 := rfl
@[simp] theorem clearState_rptr (s : State) : (clearState s).rptr = 0 := rfl
@[simp] theorem clearState_errcode (s : State) : (clearState s).errcode = none := rfl
@[simp] theorem clearState_errpos (s : State) : (clearState s).errpos = 0 := rfl
@[simp] theorem clearState_errchar (s : State) : (clearState s).errchar = 0 := rfl
@[simp] theorem clearState_inputs (s : State) : (clearState s).inputs = s.inputs := rfl
@[simp] theorem clearState_responses (s : State) : (clearState s).responses = s.responses := rfl

/-! ## `resetEvent` -/

@[simp] theorem resetEvent_params (s : State) : (resetEvent s).params = s.params := rfl
@[simp] theorem resetEvent_phase (s : State) : (resetEvent s).phase = .run := rfl
@[simp] theorem resetEvent_pos (s : State) : (resetEvent s).pos = 0 := rfl
@[simp] theorem resetEvent_nib (s : State) : (resetEvent s).nib = 0 := rfl
@[simp] theorem resetEvent_nibv (s : State) : (resetEvent s).nibv = false := rfl
@[simp] theorem resetEvent_b0 (s : State) : (resetEvent s).b0 = 0 := rfl
@[simp] theorem resetEvent_b1 (s : State) : (resetEvent s).b1 = 0 := rfl
@[simp] theorem resetEvent_gcnt (s : State) : (resetEvent s).gcnt = 0 := rfl
@[simp] theorem resetEvent_obuf (s : State) : (resetEvent s).obuf = [] := rfl
@[simp] theorem resetEvent_olen (s : State) : (resetEvent s).olen = 0 := rfl
@[simp] theorem resetEvent_rptr (s : State) : (resetEvent s).rptr = 0 := rfl
@[simp] theorem resetEvent_errcode (s : State) : (resetEvent s).errcode = none := rfl
@[simp] theorem resetEvent_errpos (s : State) : (resetEvent s).errpos = 0 := rfl
@[simp] theorem resetEvent_errchar (s : State) : (resetEvent s).errchar = 0 := rfl
@[simp] theorem resetEvent_inputs (s : State) : (resetEvent s).inputs = s.inputs := rfl
@[simp] theorem resetEvent_responses (s : State) : (resetEvent s).responses = s.responses := rfl

/-! ## `readStatus` -/

@[simp] theorem readStatus_params (r : StatusReg) (s : State) : (readStatus r s).params = s.params := rfl
@[simp] theorem readStatus_phase (r : StatusReg) (s : State) : (readStatus r s).phase = s.phase := rfl
@[simp] theorem readStatus_pos (r : StatusReg) (s : State) : (readStatus r s).pos = s.pos := rfl
@[simp] theorem readStatus_nib (r : StatusReg) (s : State) : (readStatus r s).nib = s.nib := rfl
@[simp] theorem readStatus_nibv (r : StatusReg) (s : State) : (readStatus r s).nibv = s.nibv := rfl
@[simp] theorem readStatus_b0 (r : StatusReg) (s : State) : (readStatus r s).b0 = s.b0 := rfl
@[simp] theorem readStatus_b1 (r : StatusReg) (s : State) : (readStatus r s).b1 = s.b1 := rfl
@[simp] theorem readStatus_gcnt (r : StatusReg) (s : State) : (readStatus r s).gcnt = s.gcnt := rfl
@[simp] theorem readStatus_obuf (r : StatusReg) (s : State) : (readStatus r s).obuf = s.obuf := rfl
@[simp] theorem readStatus_olen (r : StatusReg) (s : State) : (readStatus r s).olen = s.olen := rfl
@[simp] theorem readStatus_rptr (r : StatusReg) (s : State) : (readStatus r s).rptr = s.rptr := rfl
@[simp] theorem readStatus_errcode (r : StatusReg) (s : State) : (readStatus r s).errcode = s.errcode := rfl
@[simp] theorem readStatus_errpos (r : StatusReg) (s : State) : (readStatus r s).errpos = s.errpos := rfl
@[simp] theorem readStatus_errchar (r : StatusReg) (s : State) : (readStatus r s).errchar = s.errchar := rfl
@[simp] theorem readStatus_inputs (r : StatusReg) (s : State) : (readStatus r s).inputs = s.inputs := rfl
@[simp] theorem readStatus_responses (r : StatusReg) (s : State) : (readStatus r s).responses = s.responses ++ [⟨.ok, srValue r s⟩] := rfl

/-! ## `offer` -/

@[simp] theorem offer_params (e : Input) (s : State) : (offer e s).params = s.params := rfl
@[simp] theorem offer_phase (e : Input) (s : State) : (offer e s).phase = s.phase := rfl
@[simp] theorem offer_pos (e : Input) (s : State) : (offer e s).pos = s.pos := rfl
@[simp] theorem offer_nib (e : Input) (s : State) : (offer e s).nib = s.nib := rfl
@[simp] theorem offer_nibv (e : Input) (s : State) : (offer e s).nibv = s.nibv := rfl
@[simp] theorem offer_b0 (e : Input) (s : State) : (offer e s).b0 = s.b0 := rfl
@[simp] theorem offer_b1 (e : Input) (s : State) : (offer e s).b1 = s.b1 := rfl
@[simp] theorem offer_gcnt (e : Input) (s : State) : (offer e s).gcnt = s.gcnt := rfl
@[simp] theorem offer_obuf (e : Input) (s : State) : (offer e s).obuf = s.obuf := rfl
@[simp] theorem offer_olen (e : Input) (s : State) : (offer e s).olen = s.olen := rfl
@[simp] theorem offer_rptr (e : Input) (s : State) : (offer e s).rptr = s.rptr := rfl
@[simp] theorem offer_errcode (e : Input) (s : State) : (offer e s).errcode = s.errcode := rfl
@[simp] theorem offer_errpos (e : Input) (s : State) : (offer e s).errpos = s.errpos := rfl
@[simp] theorem offer_errchar (e : Input) (s : State) : (offer e s).errchar = s.errchar := rfl
@[simp] theorem offer_inputs (e : Input) (s : State) : (offer e s).inputs = e :: s.inputs := rfl
@[simp] theorem offer_responses (e : Input) (s : State) : (offer e s).responses = s.responses := rfl

/-! ## `State.resetOf` -/

@[simp] theorem resetOf_params (p : Params) : (State.resetOf p).params = p := rfl
@[simp] theorem resetOf_phase (p : Params) : (State.resetOf p).phase = .run := rfl
@[simp] theorem resetOf_pos (p : Params) : (State.resetOf p).pos = 0 := rfl
@[simp] theorem resetOf_nib (p : Params) : (State.resetOf p).nib = 0 := rfl
@[simp] theorem resetOf_nibv (p : Params) : (State.resetOf p).nibv = false := rfl
@[simp] theorem resetOf_b0 (p : Params) : (State.resetOf p).b0 = 0 := rfl
@[simp] theorem resetOf_b1 (p : Params) : (State.resetOf p).b1 = 0 := rfl
@[simp] theorem resetOf_gcnt (p : Params) : (State.resetOf p).gcnt = 0 := rfl
@[simp] theorem resetOf_obuf (p : Params) : (State.resetOf p).obuf = [] := rfl
@[simp] theorem resetOf_olen (p : Params) : (State.resetOf p).olen = 0 := rfl
@[simp] theorem resetOf_rptr (p : Params) : (State.resetOf p).rptr = 0 := rfl
@[simp] theorem resetOf_errcode (p : Params) : (State.resetOf p).errcode = none := rfl
@[simp] theorem resetOf_errpos (p : Params) : (State.resetOf p).errpos = 0 := rfl
@[simp] theorem resetOf_errchar (p : Params) : (State.resetOf p).errchar = 0 := rfl
@[simp] theorem resetOf_inputs (p : Params) : (State.resetOf p).inputs = [] := rfl
@[simp] theorem resetOf_responses (p : Params) : (State.resetOf p).responses = [] := rfl

/-- CLR and the reset event leave the registers of `State.resetOf` and touch nothing else (R96, R123). -/
theorem clearState_eq (s : State) :
    clearState s = { State.resetOf s.params with inputs := s.inputs, responses := s.responses } := rfl

end Sys2Proof.Machine
end

