-- ==== Sys2Proof/Laws/Ops.lean ====
section
/-! SUPPORT. For each shared operation, once, everything it can do; provers cite these lemmas and do not unfold the operation. -/

namespace Sys2Proof.Machine

@[simp] theorem Quad.length_toList {α : Type} (q : Quad α) : q.toList.length = 4 := rfl

/-- `append4` answers exactly when the buffer has room, and then writes OBUF and OLEN only (R86). -/
theorem append4_ok_iff {q : Quad Byte} {s t : State} :
    append4 q s = .ok t ↔ s.olen.toNat + 4 ≤ s.params.maxOut ∧
      t = { s with obuf := Memory.writeFrom s.obuf s.olen.toNat q.toList, olen := s.olen + 4 } := by
  unfold append4
  split
  · next h => simp [h, eq_comm]
  · next h => simp [h]

/-- `append4` where there is room. -/
theorem append4_of_room {s : State} (q : Quad Byte) (h : s.olen.toNat + 4 ≤ s.params.maxOut) :
    append4 q s = .ok { s with obuf := Memory.writeFrom s.obuf s.olen.toNat q.toList, olen := s.olen + 4 } :=
  append4_ok_iff.2 ⟨h, rfl⟩

/-- Everything `push_byte` can do when it answers: the byte waits in B0 or in B1, or completes its group (R83). -/
theorem pushByte_cases {b : Byte} {s t : State} (h : pushByte b s = .ok t) :
    (s.gcnt = 0 ∧ t = { s with b0 := b, gcnt := 1 }) ∨
    (s.gcnt = 1 ∧ t = { s with b1 := b, gcnt := 2 }) ∨
    (s.gcnt = 2 ∧ s.olen.toNat + 4 ≤ s.params.maxOut ∧
      t = { s with
        obuf := Memory.writeFrom s.obuf s.olen.toNat (encGroup s.b0 s.b1 b).toList, olen := s.olen + 4
        b0 := 0, b1 := 0, gcnt := 0 }) := by
  unfold pushByte at h
  split at h
  · next hg => exact .inl ⟨hg, (Except.ok.inj h).symm⟩
  · next hg => exact .inr (.inl ⟨hg, (Except.ok.inj h).symm⟩)
  · next hg =>
    split at h
    · cases h
    · next u hu =>
      obtain ⟨hroom, rfl⟩ := append4_ok_iff.1 hu
      exact .inr (.inr ⟨hg, hroom, (Except.ok.inj h).symm⟩)

theorem pushByte_of_none {b : Byte} {s : State} (h : s.gcnt = 0) : pushByte b s = .ok { s with b0 := b, gcnt := 1 } := by
  unfold pushByte; rw [h]

theorem pushByte_of_one {b : Byte} {s : State} (h : s.gcnt = 1) : pushByte b s = .ok { s with b1 := b, gcnt := 2 } := by
  unfold pushByte; rw [h]

theorem pushByte_of_two {b : Byte} {s : State} (h : s.gcnt = 2) (hroom : s.olen.toNat + 4 ≤ s.params.maxOut) :
    pushByte b s = .ok { s with
      obuf := Memory.writeFrom s.obuf s.olen.toNat (encGroup s.b0 s.b1 b).toList, olen := s.olen + 4
      b0 := 0, b1 := 0, gcnt := 0 } := by
  unfold pushByte; rw [h, append4_of_room _ hroom]

/-- Everything step 3 of END can do when it answers: nothing, or one zero-filled group (R87, R90). -/
theorem flushGroup_cases {s t : State} (h : flushGroup s = .ok t) :
    (s.gcnt = 0 ∧ t = s) ∨
    (s.gcnt ≠ 0 ∧ s.olen.toNat + 4 ≤ s.params.maxOut ∧ ∃ a b,
      (s.gcnt = 1 → a = s.b0 ∧ b = 0x00#8) ∧ (s.gcnt = 2 → a = s.b0 ∧ b = s.b1) ∧
      t = { s with
        obuf := Memory.writeFrom s.obuf s.olen.toNat (encGroup a b 0x00#8).toList, olen := s.olen + 4 }) := by
  unfold flushGroup at h
  split at h
  · next hg => exact .inl ⟨hg, (Except.ok.inj h).symm⟩
  · next hg =>
    obtain ⟨hroom, rfl⟩ := append4_ok_iff.1 h
    exact .inr ⟨by rw [hg]; decide, hroom, s.b0, 0x00#8, fun _ => ⟨rfl, rfl⟩, fun h2 => by simp [hg] at h2, rfl⟩
  · next hg =>
    obtain ⟨hroom, rfl⟩ := append4_ok_iff.1 h
    exact .inr ⟨by rw [hg]; decide, hroom, s.b0, s.b1, fun h1 => by simp [hg] at h1, fun _ => ⟨rfl, rfl⟩, rfl⟩

theorem flushGroup_of_none {s : State} (h : s.gcnt = 0) : flushGroup s = .ok s := by
  unfold flushGroup; rw [h]

theorem flushGroup_of_one {s : State} (h : s.gcnt = 1) : flushGroup s = append4 (encGroup s.b0 0x00#8 0x00#8) s := by
  unfold flushGroup; rw [h]

theorem flushGroup_of_two {s : State} (h : s.gcnt = 2) : flushGroup s = append4 (encGroup s.b0 s.b1 0x00#8) s := by
  unfold flushGroup; rw [h]

/-- Everything an accepted digit can do: it waits in NIB, or completes a byte that enters its group (R74 steps 4 to 6). -/
theorem acceptNibble_cases {n : Nibble} {s t : State} (h : acceptNibble n s = .ok t) :
    (s.nibv = false ∧ t = respond .ok 0 { s with nib := n, nibv := true, pos := s.pos + 1 }) ∨
    (s.nibv = true ∧ ∃ u, pushByte (pair s.nib n) { s with nib := 0, nibv := false } = .ok u ∧
      t = respond .ok 0 { u with pos := u.pos + 1 }) := by
  unfold acceptNibble at h
  split at h
  · next hv =>
    split at h
    · cases h
    · next u hu => exact .inr ⟨hv, u, hu, (Except.ok.inj h).symm⟩
  · next hv => exact .inl ⟨by simpa using hv, (Except.ok.inj h).symm⟩

/-- The fault entry is the clearing of the registers with the fault recorded and POS kept (R110). -/
theorem raiseFault_eq_respond (f : MsgFault) (p : Word32) (ch : Byte) (s : State) :
    raiseFault f p ch s = respond .fault (zext32 f.code) { clearState s with
      pos := s.pos, errcode := some f, errpos := p, errchar := ch, phase := .err } := rfl

end Sys2Proof.Machine
end

