-- ==== Sys2Proof/Laws/PerInstr.lean ====
section
/-! SUPPORT. A law of every command, stated of its syntax and proved constructor by constructor: the word it is encoded as selects
the row of the opcode map that carries its name (spec/30_encoding.md R52). -/

namespace Sys2Proof.Laws

/-- The command's word selects the row that carries its name (R52). -/
def SelectsItsRow.Statement (i : Instr) : Prop :=
  ∃ r ∈ opcodeTable, r.mnemonic = i.mnemonic ∧ r.selects (encode i) = true

theorem SelectsItsRow.put (c : Byte) : SelectsItsRow.Statement (.put c) := by
  refine ⟨⟨"PUT", 0x100#12, 0xF00#12⟩, List.mem_cons_self, rfl, ?_⟩
  simp only [OpcodeRow.selects, encode, commandWord, beq_iff_eq]
  revert c
  decide

theorem SelectsItsRow.endMsg : SelectsItsRow.Statement .endMsg := by unfold SelectsItsRow.Statement; decide

theorem SelectsItsRow.pop : SelectsItsRow.Statement .pop := by unfold SelectsItsRow.Statement; decide

theorem SelectsItsRow.clr : SelectsItsRow.Statement .clr := by unfold SelectsItsRow.Statement; decide

theorem SelectsItsRow.rsrStatus : SelectsItsRow.Statement .rsrStatus := by unfold SelectsItsRow.Statement; decide

theorem SelectsItsRow.rsrPos : SelectsItsRow.Statement .rsrPos := by unfold SelectsItsRow.Statement; decide

theorem SelectsItsRow.rsrOlen : SelectsItsRow.Statement .rsrOlen := by unfold SelectsItsRow.Statement; decide

theorem SelectsItsRow.rsrRptr : SelectsItsRow.Statement .rsrRptr := by unfold SelectsItsRow.Statement; decide

theorem SelectsItsRow.rsrErrpos : SelectsItsRow.Statement .rsrErrpos := by unfold SelectsItsRow.Statement; decide

theorem SelectsItsRow.rsrErrchar : SelectsItsRow.Statement .rsrErrchar := by unfold SelectsItsRow.Statement; decide

theorem SelectsItsRow.rsrCap : SelectsItsRow.Statement .rsrCap := by unfold SelectsItsRow.Statement; decide

end Sys2Proof.Laws
end

