-- ==== Sys2Proof/Laws/Step.lean ====
section
/-! SUPPORT. Once, everything a command and a step can do; invariants are derived from these two lemmas. -/

namespace Sys2Proof.Machine

/-- Everything a command can do when it gives a next state. -/
inductive Effect (i : Instr) (s t : State) : Prop where
  /-- Refused (R114). -/
  | refused (hi : (∃ c, i = .put c ∧ s.phase ≠ .run) ∨ (i = .endMsg ∧ s.phase ≠ .run) ∨
      (i = .pop ∧ (s.phase ≠ .done ∨ s.rptr = s.olen))) (ht : t = refuse s)
  /-- A fault entry at POS, in RUN (R110). -/
  | faulted (f : MsgFault) (c : Byte) (hp : s.phase = .run) (ht : t = raiseFault f s.pos c s)
      (hi : (i = .put c ∧ f = .capacityExceeded ∧ s.pos.toNat = s.params.maxChars) ∨
        (i = .put c ∧ f = .invalidHexDigit ∧ s.pos.toNat ≠ s.params.maxChars ∧ nib c = none) ∨
        (i = .endMsg ∧ f = .invalidHexLength ∧ c = 0x00#8 ∧ s.nibv = true))
  /-- A digit accepted (R74). -/
  | accepted (c : Byte) (n : Nibble) (hp : s.phase = .run) (hi : i = .put c) (hn : nib c = some n)
      (hc : s.pos.toNat ≠ s.params.maxChars) (ht : acceptNibble n s = .ok t)
  /-- The message finished (R90). -/
  | finished (u : State) (hp : s.phase = .run) (hi : i = .endMsg) (hv : s.nibv = false) (hu : flushGroup s = .ok u)
      (ht : t = finishMessage u)
  /-- A character read out (R95). -/
  | popped (v : Byte) (hp : s.phase = .done) (hi : i = .pop) (hr : s.rptr ≠ s.olen)
      (hv : Memory.read s.obuf s.rptr.toNat = some v)
      (ht : t = respond .ok (zext32 v) { s with rptr := s.rptr + 1 })
  /-- The reset state (R96). -/
  | cleared (hi : i = .clr) (ht : t = respond .ok 0 (clearState s))
  /-- A status register read (R97). -/
  | status (r : StatusReg) (hi : i = match r with
      | .status => .rsrStatus
      | .pos => .rsrPos
      | .olen => .rsrOlen
      | .rptr => .rsrRptr
      | .errpos => .rsrErrpos
      | .errchar => .rsrErrchar
      | .cap => .rsrCap) (ht : t = readStatus r s)

theorem next_inj {s t : State} (h : (Host.Outcome.next s : Host.Outcome State Fault Refusal) = .next t) : t = s := by
  cases h; rfl

/-- The inversion of `exec`: a next state is one of the effects above. -/
theorem exec_next {i : Instr} {s t : State} (h : exec i s = .next t) : Effect i s t := by
  cases i with
  | put c =>
    change execPut c s = _ at h
    unfold execPut at h
    split at h
    · next hp =>
      split at h
      · next hc => exact .faulted _ c hp (next_inj h) (.inl ⟨rfl, rfl, hc⟩)
      · next hc =>
        split at h
        · next hn => exact .faulted _ c hp (next_inj h) (.inr (.inl ⟨rfl, rfl, hc, hn⟩))
        · next n hn =>
          split at h
          · cases h
          · next u hu => exact .accepted c n hp rfl hn hc (next_inj h ▸ hu)
    · next hp => exact .refused (.inl ⟨c, rfl, by simp [hp]⟩) (next_inj h)
    · next hp => exact .refused (.inl ⟨c, rfl, by simp [hp]⟩) (next_inj h)
  | endMsg =>
    change execEnd s = _ at h
    unfold execEnd at h
    split at h
    · next hp =>
      split at h
      · next hv => exact .faulted _ _ hp (next_inj h) (.inr (.inr ⟨rfl, rfl, rfl, hv⟩))
      · next hv =>
        split at h
        · cases h
        · next u hu => exact .finished u hp rfl (by simpa using hv) hu (next_inj h)
    · next hp => exact .refused (.inr (.inl ⟨rfl, by simp [hp]⟩)) (next_inj h)
    · next hp => exact .refused (.inr (.inl ⟨rfl, by simp [hp]⟩)) (next_inj h)
  | pop =>
    change execPop s = _ at h
    unfold execPop at h
    split at h
    · next hp =>
      split at h
      · next hr => exact .refused (.inr (.inr ⟨rfl, .inr hr⟩)) (next_inj h)
      · next hr =>
        split at h
        · cases h
        · next v hv => exact .popped v hp rfl hr hv (next_inj h)
    · next hp => exact .refused (.inr (.inr ⟨rfl, .inl (by simp [hp])⟩)) (next_inj h)
    · next hp => exact .refused (.inr (.inr ⟨rfl, .inl (by simp [hp])⟩)) (next_inj h)
  | clr => exact .cleared rfl (next_inj h)
  | rsrStatus => exact .status .status rfl (next_inj h)
  | rsrPos => exact .status .pos rfl (next_inj h)
  | rsrOlen => exact .status .olen rfl (next_inj h)
  | rsrRptr => exact .status .rptr rfl (next_inj h)
  | rsrErrpos => exact .status .errpos rfl (next_inj h)
  | rsrErrchar => exact .status .errchar rfl (next_inj h)
  | rsrCap => exact .status .cap rfl (next_inj h)

/-- Everything a step can do when it gives a next state: hold, reset, execute a command, or answer an illegal word. -/
theorem step_next {s t : State} (h : step s = .next t) :
    (s.inputs = [] ∧ t = s) ∨
    (∃ rest, s.inputs = .reset :: rest ∧ t = resetEvent { s with inputs := rest }) ∨
    (∃ w rest i, s.inputs = .command w :: rest ∧ decode w = .ok i ∧ exec i { s with inputs := rest } = .next t) ∨
    (∃ w rest e, s.inputs = .command w :: rest ∧ decode w = .error e ∧ t = illegal { s with inputs := rest }) := by
  unfold step at h
  split at h
  · next hi => exact .inl ⟨hi, next_inj h⟩
  · next rest hi => exact .inr (.inl ⟨rest, hi, next_inj h⟩)
  · next w rest hi =>
    split at h
    · next i hd => exact .inr (.inr (.inl ⟨w, rest, i, hi, hd, h⟩))
    · next e hd => exact .inr (.inr (.inr ⟨w, rest, e, hi, hd, next_inj h⟩))

end Sys2Proof.Machine
end

