-- ==== Sys2Proof/Tests/Slice0.lean ====
section
/-! SUPPORT. Tests against the spec's own words, tables and vectors (the source of each stands beside it), and a witness for
every statement that has hypotheses: a concrete state and operands that meet all of them together. -/

set_option Elab.async false

namespace Sys2Proof.Tests

open Sys2Proof Sys2Proof.Machine

/-- The codes of a text (R9, R58). -/
def chars (text : String) : List Byte := text.toList.map fun c => BitVec.ofNat 8 c.toNat

/-- The next state of an outcome, if it is one. -/
def nextOf (o : Host.Outcome State Fault Refusal) : Option State :=
  match o with
  | .next s => some s
  | .fault _ => none
  | .refused _ => none

/-- The last response of the next state of an outcome. -/
def answer (o : Host.Outcome State Fault Refusal) : Option Response :=
  (nextOf o).bind fun s => s.responses.getLast?

/-- The smallest instance, `MAX_GROUPS = 1` (table G). -/
def one : Params := ⟨1, by decide, by decide⟩

/-! ## Small states, as the vectors of 95_test_vectors.md name them -/

/-- After `PUT '4'` (P1 step 2). -/
def afterOne : State := { State.reset with pos := 1, nib := 4, nibv := true }

/-- After `PUTS "49"` (P1 step 3). -/
def afterTwo : State := { State.reset with pos := 2, b0 := 0x49, gcnt := 1 }

/-- After `PUTS "492"` (P1 step 4). -/
def afterThree : State := { State.reset with pos := 3, nib := 2, nibv := true, b0 := 0x49, gcnt := 1 }

/-- After `PUTS "4927"` (P1 step 5). -/
def afterFour : State := { State.reset with pos := 4, b0 := 0x49, b1 := 0x27, gcnt := 2 }

/-- After `PUTS "49276"` (V1, group 0). -/
def afterFive : State := { afterFour with pos := 5, nib := 6, nibv := true }

/-- The cells of `SSdt` (E4). -/
def cellsSSdt : Memory := [(0, 0x53), (1, 0x53), (2, 0x64), (3, 0x74)]

/-- After `PUTS "49276d"` (V1, group 0). -/
def afterSix : State := { State.reset with pos := 6, obuf := cellsSSdt, olen := 4 }

/-- After `PUTS "ffffff"` with `MAX_GROUPS = 1` (G1). -/
def fullOne : State :=
  { State.resetOf one with pos := 6, obuf := [(0, 0x2F), (1, 0x2F), (2, 0x2F), (3, 0x2F)], olen := 4 }

/-- DONE with `SSdt` and nothing read yet (E4). -/
def doneSSdt : State := { afterSix with phase := .done }

/-- DONE with everything read (the last row but the empty message of table J). -/
def doneRead : State := { doneSSdt with rptr := 4 }

/-- ERR after `4g` (F2). -/
def errDigit : State :=
  { State.reset with phase := .err, pos := 1, errcode := some .invalidHexDigit, errpos := 1, errchar := 0x67 }

/-- ERR after END on `492` (F20). -/
def errLength : State :=
  { State.reset with phase := .err, pos := 3, errcode := some .invalidHexLength, errpos := 3 }

/-- ERR after the seventh character with `MAX_GROUPS = 1` (G3). -/
def errCapacity : State :=
  { State.resetOf one with
    phase := .err, pos := 6, errcode := some .capacityExceeded, errpos := 6, errchar := 0x67 }

/-- The same state with the host having one word accepted next. -/
def offering (w : Command) (s : State) : State := { s with inputs := [.command w] }

/-! ## Well-formedness: the check refuses an ill-formed term of every kind -/

theorem test_wf_put : Line.wf (.put 255) = true ∧ Line.wf (.put 256) = false := by decide
theorem test_wf_rsr : Line.wf (.rsr 6) = true ∧ Line.wf (.rsr 7) = false := by decide
theorem test_wf_puts : Line.wf (.puts [0x34, 0x39]) = true ∧ Line.wf (.puts [0x34, 256]) = false := by decide
theorem test_wf_msg : Line.wf (.msg []) = true ∧ Line.wf (.msg [300]) = false := by decide
theorem test_wf_conv : Line.wf (.conv [0x34] 9) = true ∧ Line.wf (.conv [0x34, 256] 0) = false := by decide
theorem test_wf_plain :
    Line.wf .endMsg = true ∧ Line.wf .pop = true ∧ Line.wf .clr = true ∧ Line.wf (.popn 70000) = true := by decide

/-- R6: 1 to 65536. -/
theorem test_params_bounds :
    Params.ofNat? 0 = none ∧ Params.ofNat? 65537 = none ∧
    (Params.ofNat? 1).map Params.maxChars = some 6 ∧ (Params.ofNat? 65536).map Params.maxOut = some 262144 := by decide

/-! ## Decoding: the words of R52, written out as `op` and `imm` (R51), and table I -/

theorem test_decode_put : decode 0b0001_00110100#12 = .ok (.put 0x34#8) := by decide
theorem test_decode_put_bounds :
    decode 0b0001_00000000#12 = .ok (.put 0x00#8) ∧ decode 0b0001_11111111#12 = .ok (.put 0xFF#8) := by decide
theorem test_decode_end : decode 0b0010_00000000#12 = .ok .endMsg := by decide
theorem test_decode_pop : decode 0b0011_00000000#12 = .ok .pop := by decide
theorem test_decode_clr : decode 0b0100_00000000#12 = .ok .clr := by decide
theorem test_decode_rsrStatus : decode 0b0101_00000000#12 = .ok .rsrStatus := by decide
theorem test_decode_rsrPos : decode 0b0101_00000001#12 = .ok .rsrPos := by decide
theorem test_decode_rsrOlen : decode 0b0101_00000010#12 = .ok .rsrOlen := by decide
theorem test_decode_rsrRptr : decode 0b0101_00000011#12 = .ok .rsrRptr := by decide
theorem test_decode_rsrErrpos : decode 0b0101_00000100#12 = .ok .rsrErrpos := by decide
theorem test_decode_rsrErrchar : decode 0b0101_00000101#12 = .ok .rsrErrchar := by decide
theorem test_decode_rsrCap : decode 0b0101_00000110#12 = .ok .rsrCap := by decide

/-- The illegal words of table I. -/
theorem test_decode_illegal :
    [0x000#12, 0x0FF#12, 0x201#12, 0x2FF#12, 0x3FF#12, 0x401#12, 0x507#12, 0x5FF#12, 0x600#12, 0xA34#12, 0xF00#12,
      0xFFF#12].all (fun w => !legalWord w) = true := by decide

/-- R53: each group of illegal words is rejected by its name. -/
theorem test_decode_names :
    decode 0x0FF#12 = .error (.unassignedOpcode 0x0#4) ∧ decode 0x301#12 = .error (.nonzeroImmediate 0x3#4 0x01#8) ∧
    decode 0x507#12 = .error (.noSuchRegister 0x07#8) ∧ decode 0xA34#12 = .error (.unassignedOpcode 0xA#4) := by decide

/-- The host's two readings of a word: 12 bits of the table, and a 16-bit container whose high bits are zero or not. -/
theorem test_decodeTableWord :
    decodeTableWord 12 0x134 = some (.put 0x34#8) ∧ decodeTableWord 16 0x506 = some .rsrCap ∧
    decodeTableWord 16 0x1134 = none ∧ decodeTableWord 12 0x201 = none := by decide

/-! ## Text lines (R56, R57, R9) -/

theorem test_line_put : assembleLine "PUT '4' ; first".toList = some [.put 0x34] ∧
    assembleLine "  PUT 0x80".toList = some [.put 0x80] := by decide +kernel
theorem test_line_put_too_big : assembleLine "PUT 256".toList = none := by decide +kernel
theorem test_line_rsr : assembleLine "RSR ERRPOS".toList = some [.rsrErrpos] ∧
    assembleLine "RSR 6".toList = some [.rsrCap] ∧ assembleLine "RSR 7".toList = none := by decide +kernel
theorem test_line_comment : assembleLine "; nothing".toList = some [] := by decide +kernel
/-- R57, the expansion of CONV, on the text of P1. -/
theorem test_line_conv : assembleLine "CONV \"4927\", 2".toList =
    some [.clr, .put 0x34, .put 0x39, .put 0x32, .put 0x37, .endMsg, .pop, .pop] := by decide +kernel

/-! ## The datapath: tables A to D -/

theorem test_nib_edges :
    nib 0x2F = none ∧ nib 0x30 = some 0 ∧ nib 0x39 = some 9 ∧ nib 0x3A = none ∧ nib 0x41 = none ∧
    nib 0x60 = none ∧ nib 0x61 = some 10 ∧ nib 0x66 = some 15 ∧ nib 0x67 = none ∧ nib 0xB0 = none := by decide
theorem test_pair : pair 4 9 = 0x49 ∧ pair 9 4 = 0x94 ∧ pair 15 0 = 0xF0 := by decide
/-- Table C: each sextet position alone. -/
theorem test_group_positions :
    (encGroup 0xFC 0x00 0x00).toList = chars "/AAA" ∧ (encGroup 0x03 0xF0 0x00).toList = chars "A/AA" ∧
    (encGroup 0x00 0x0F 0xC0).toList = chars "AA/A" ∧ (encGroup 0x00 0x00 0x3F).toList = chars "AAA/" := by decide +kernel
theorem test_word24 : word24 0x49 0x27 0x6D = 0x49276D ∧ sextets 0x49276D = ⟨18, 18, 29, 45⟩ := by decide
theorem test_b64char_edges :
    b64char 0 = 0x41 ∧ b64char 25 = 0x5A ∧ b64char 26 = 0x61 ∧ b64char 51 = 0x7A ∧ b64char 52 = 0x30 ∧
    b64char 61 = 0x39 ∧ b64char 62 = 0x2B ∧ b64char 63 = 0x2F := by decide

/-! ## Whole messages -/

/-- V1, the source's known vector. -/
theorem test_known_vector :
    convert Params.default
      (chars "49276d206b696c6c696e6720796f757220627261696e206c696b65206120706f69736f6e6f7573206d757368726f6f6d") =
    .ok (chars "SSdtIGtpbGxpbmcgeW91ciBicmFpbiBsaWtlIGEgcG9pc29ub3VzIG11c2hyb29t") := by decide +kernel
/-- E8, every character of the alphabet once. -/
theorem test_whole_alphabet :
    convert Params.default
      (chars "00108310518720928b30d38f41149351559761969b71d79f8218a39259a7a29aabb2dbafc31cb3d35db7e39ebbf3dfbf") =
    .ok base64Alphabet := by decide +kernel
/-- E2, E3, E9: short final groups. -/
theorem test_short_groups :
    convert one (chars "49") = .ok (chars "SQAA") ∧ convert one (chars "4927") = .ok (chars "SScA") ∧
    convert Params.default (chars "000fa5ff") = .ok (chars "AA+l/wAA") := by decide +kernel
/-- F23, F20, G3: which failure is reported. -/
theorem test_failures :
    convert one (chars "4g2") = .error ⟨.invalidHexDigit, 1, 0x67⟩ ∧
    convert one (chars "492") = .error ⟨.invalidHexLength, 3, 0x00⟩ ∧
    convert one (chars "ffffffg") = .error ⟨.capacityExceeded, 6, 0x67⟩ := by decide +kernel
/-- V5. -/
theorem test_hex_round_trip :
    hexEncode [0x00, 0x0F, 0xA5, 0xFF] = chars "000fa5ff" ∧
    hexDecode (chars "000fa5ff") = .ok [0x00, 0x0F, 0xA5, 0xFF] := by decide +kernel

/-! ## One step of each command -/

/-- P1 step 3: the second digit completes 0x49 in B0. -/
theorem test_put_pair : nextOf (exec (.put 0x39) afterOne) = some { afterTwo with responses := [⟨.ok, 0⟩] } := by decide
/-- V1, group 0: the sixth character appends `SSdt`. -/
theorem test_put_group : nextOf (exec (.put 0x64) afterFive) = some { afterSix with responses := [⟨.ok, 0⟩] } := by decide
/-- F2: the bad second digit discards the waiting nibble and records index 1. -/
theorem test_put_fault :
    nextOf (exec (.put 0x67) afterOne) = some { errDigit with responses := [⟨.fault, 1⟩] } := by decide
/-- G3: the capacity is checked before the digit. -/
theorem test_put_capacity :
    nextOf (exec (.put 0x67) fullOne) = some { errCapacity with responses := [⟨.fault, 3⟩] } := by decide
/-- P1 step 6: the two waiting bytes give `SScA`. -/
theorem test_end_flush : nextOf (exec .endMsg afterFour) =
    some { State.reset with
      phase := .done, pos := 4, obuf := [(0, 0x53), (1, 0x53), (2, 0x63), (3, 0x41)], olen := 4,
      responses := [⟨.ok, 4⟩] } := by decide
/-- P3 step 6 (F20). -/
theorem test_end_odd : nextOf (exec .endMsg afterThree) = some { errLength with responses := [⟨.fault, 2⟩] } := by decide
/-- The first and the third character of `SSdt` (V1: `(OK, 0x53)`, then ... `(OK, 0x64)`). -/
theorem test_pop : nextOf (exec .pop { doneSSdt with rptr := 2 }) =
    some { doneSSdt with rptr := 3, responses := [⟨.ok, 0x64⟩] } := by decide
/-- Table J: nothing left to pop. -/
theorem test_pop_refused : nextOf (exec .pop doneRead) = some { doneRead with responses := [⟨.refused, 0⟩] } := by decide
/-- R96, the worked example's state. -/
theorem test_clr : nextOf (exec .clr errDigit) = some { State.reset with responses := [⟨.ok, 0⟩] } := by decide
/-- R97, the worked example: `492` gives STATUS 0x30 and POS 3. -/
theorem test_rsr_status : nextOf (exec .rsrStatus afterThree) =
    some { afterThree with responses := [⟨.ok, 0x30⟩] } := by decide
theorem test_rsr_status_err : answer (exec .rsrStatus errLength) = some ⟨.ok, 0x0A⟩ := by decide
theorem test_rsr_pos : answer (exec .rsrPos afterThree) = some ⟨.ok, 3⟩ := by decide
/-- Table H, row 6. -/
theorem test_rsr_olen : answer (exec .rsrOlen afterSix) = some ⟨.ok, 4⟩ := by decide
theorem test_rsr_rptr : answer (exec .rsrRptr doneRead) = some ⟨.ok, 4⟩ := by decide
/-- P2 steps 8 and 9. -/
theorem test_rsr_errpos : answer (exec .rsrErrpos errDigit) = some ⟨.ok, 1⟩ := by decide
theorem test_rsr_errchar : answer (exec .rsrErrchar errDigit) = some ⟨.ok, 0x67⟩ := by decide
/-- G6. -/
theorem test_rsr_cap : answer (exec .rsrCap errCapacity) = some ⟨.ok, 1⟩ := by decide
/-- The last rows of table J: an illegal word is answered ILLEGAL in every phase. -/
theorem test_illegal : nextOf (step (offering 0x201 doneSSdt)) =
    some { doneSSdt with responses := [⟨.illegal, 0⟩] } := by decide
/-- A step runs the word the host placed: `PUT '4'` right after reset (R74, worked example). -/
theorem test_fetch : nextOf (step (State.reset.withFetchWord 12 0x134)) =
    some { afterOne with responses := [⟨.ok, 0⟩] } := by decide
/-- R123. -/
theorem test_reset_event : nextOf (step { doneRead with inputs := [.reset] }) = some State.reset := by decide
/-- The canonical form of the cells at reset, and that writing out of order keeps it. -/
theorem test_memory_form :
    Memory.wf State.reset.obuf ∧ Memory.write (Memory.write [] 3 0x41) 1 0x42 = [(1, 0x42), (3, 0x41)] := by decide
/-- The two stops of the model, in states that break R31 (log entries 5 and 6). -/
theorem test_stops :
    (match exec .pop { doneSSdt with obuf := [] } with | .fault f => f == .outputCellAbsent | _ => false) = true ∧
    (match exec .endMsg { fullOne with gcnt := 1 } with | .fault f => f == .outputIndexOutside | _ => false) = true := by
  decide

/-! ## Witnesses: the invariants of R31 hold in states of every phase -/

theorem inv_afterOne : MachineInv afterOne :=
  ⟨by constructor <;> decide, show RunInv afterOne by constructor <;> first | decide | exact ⟨by decide, by decide, by decide⟩⟩
theorem inv_afterTwo : MachineInv afterTwo :=
  ⟨by constructor <;> decide, show RunInv afterTwo by constructor <;> first | decide | exact ⟨by decide, by decide, by decide⟩⟩
theorem inv_afterThree : MachineInv afterThree :=
  ⟨by constructor <;> decide, show RunInv afterThree by constructor <;> first | decide | exact ⟨by decide, by decide, by decide⟩⟩
theorem inv_afterFour : MachineInv afterFour :=
  ⟨by constructor <;> decide, show RunInv afterFour by constructor <;> first | decide | exact ⟨by decide, by decide, by decide⟩⟩
theorem inv_afterFive : MachineInv afterFive :=
  ⟨by constructor <;> decide, show RunInv afterFive by constructor <;> first | decide | exact ⟨by decide, by decide, by decide⟩⟩
theorem inv_fullOne : MachineInv fullOne :=
  ⟨by constructor <;> decide, show RunInv fullOne by constructor <;> first | decide | exact ⟨by decide, by decide, by decide⟩⟩
theorem inv_doneSSdt : MachineInv doneSSdt :=
  ⟨by constructor <;> decide, show DoneInv doneSSdt by constructor <;> first | decide | exact ⟨by decide, by decide, by decide⟩⟩
theorem inv_doneRead : MachineInv doneRead :=
  ⟨by constructor <;> decide, show DoneInv doneRead by constructor <;> first | decide | exact ⟨by decide, by decide, by decide⟩⟩
theorem inv_errDigit : MachineInv errDigit :=
  ⟨by constructor <;> decide, show ErrInv errDigit by constructor <;> decide⟩
theorem inv_errLength : MachineInv errLength :=
  ⟨by constructor <;> decide, show ErrInv errLength by constructor <;> decide⟩
theorem inv_errCapacity : MachineInv errCapacity :=
  ⟨by constructor <;> decide, show ErrInv errCapacity by constructor <;> decide⟩

/-- The invariants do not speak of the host's events. -/
theorem inv_offering_clr : MachineInv (offering 0x400 errDigit) ∧ MachineInv (offering 0x164 afterFive) ∧
    MachineInv (offering 0x300 doneSSdt) :=
  ⟨⟨by constructor <;> decide, show ErrInv (offering 0x400 errDigit) by constructor <;> decide⟩,
    ⟨by constructor <;> decide,
      show RunInv (offering 0x164 afterFive) by
        constructor <;> first | decide | exact ⟨by decide, by decide, by decide⟩⟩,
    ⟨by constructor <;> decide,
      show DoneInv (offering 0x300 doneSSdt) by
        constructor <;> first | decide | exact ⟨by decide, by decide, by decide⟩⟩⟩

/-! ## Witnesses: encoding and the step -/

theorem witness_DecodingFollowsTheOpcodeMap :
    (⟨"PUT", 0x100#12, 0xF00#12⟩ : OpcodeRow) ∈ opcodeTable ∧ 0x1FF#12 &&& 0xF00#12 = 0x100#12 ∧
    (⟨"RSR_CAP", 0x506#12, 0xFFF#12⟩ : OpcodeRow) ∈ opcodeTable ∧ 0x506#12 &&& 0xFFF#12 = 0x506#12 ∧
    decode 0x1FF = .ok (.put 0xFF#8) ∧ decode 0x506 = .ok .rsrCap := by decide

/-- One word of each of the four groups of R53, at its edge. -/
theorem witness_IllegalWordsChangeNothing :
    (offering 0x0FF doneSSdt).inputs = [.command 0x0FF] ∧ (∀ r ∈ opcodeTable, 0x0FF#12 &&& r.mask ≠ r.pattern) ∧
    (∀ r ∈ opcodeTable, 0x201#12 &&& r.mask ≠ r.pattern) ∧ (∀ r ∈ opcodeTable, 0x507#12 &&& r.mask ≠ r.pattern) ∧
    (∀ r ∈ opcodeTable, 0x600#12 &&& r.mask ≠ r.pattern) := by decide

theorem witness_PseudoCommandsExpand : ∀ c ∈ [0x34, 0, 255], c < 256 := by decide

theorem witness_StepRunsTheDecodedCommand :
    (offering 0x134 afterTwo).inputs = .command 0x134 :: [] ∧ decode 0x134 = .ok (.put 0x34#8) := by decide

theorem witness_FetchedWordRunsNext : 12 ≤ 12 ∧ 12 ≤ 16 := by decide

theorem witness_StepWithoutEventHoldsState : doneSSdt.inputs = [] := by decide

theorem witness_ResetEventReplacesTheRegisters :
    ({ doneRead with inputs := [.reset, .command 0x134] } : State).inputs = .reset :: [.command 0x134] := by decide

theorem witness_EveryCommandGetsOneResponse :
    MachineInv (offering 0x164 afterFive) ∧ (offering 0x164 afterFive).inputs = .command 0x164 :: [] :=
  ⟨inv_offering_clr.2.1, rfl⟩

/-- A command of each kind of answer: OK, REFUSED, FAULT with each code, and an illegal word. -/
theorem witness_ResponsesFollowTheTable :
    exec (.put 0x39) afterOne = .next { afterTwo with responses := [⟨.ok, 0⟩] } ∧
    exec .pop doneRead = .next { doneRead with responses := [⟨.refused, 0⟩] } ∧
    exec .endMsg afterThree = .next { errLength with responses := [⟨.fault, 2⟩] } ∧
    (offering 0x201 errDigit).inputs = .command 0x201 :: [] ∧ legalWord 0x201 = false :=
  ⟨rfl, rfl, rfl, rfl, by decide⟩

theorem witness_ResetValues :
    State.reset = State.reset ∧ (∃ p, State.resetOf one = State.resetOf p) ∧
    ∃ u, exec .clr u = .next { State.reset with responses := [⟨.ok, 0⟩] } :=
  ⟨rfl, ⟨one, rfl⟩, ⟨errDigit, rfl⟩⟩

theorem witness_LevelOutputsMirrorPhase :
    doneOut doneSSdt = true ∧ errOut errDigit = true ∧ doneSSdt.phase = doneRead.phase := by decide

/-! ## Witnesses: PUT and END -/

/-- The edges of the two digit ranges (R71). -/
theorem witness_NibbleLookupIsTheDigitTable :
    0x30 ≤ (0x30#8).toNat ∧ (0x39#8).toNat ≤ 0x39 ∧ 0x61 ≤ (0x61#8).toNat ∧ (0x66#8).toNat ≤ 0x66 ∧
    nib 0x2F = none ∧ nib 0x39 = some 9 := by decide

theorem witness_PutFirstDigitWaits :
    afterFour.phase = .run ∧ afterFour.pos.toNat ≠ 6 * afterFour.params.maxGroups ∧
    (0x36#8, 6#4) ∈ hexDigitTable ∧ afterFour.nibv = false := by decide

/-- Both clauses: the first and the second byte of a group. -/
theorem witness_PutSecondDigitKeepsTheByte :
    (afterOne.phase = .run ∧ afterOne.pos.toNat ≠ 6 * afterOne.params.maxGroups ∧ (0x39#8, 9#4) ∈ hexDigitTable ∧
      afterOne.nibv = true ∧ afterOne.gcnt = 0) ∧
    (afterThree.phase = .run ∧ afterThree.pos.toNat ≠ 6 * afterThree.params.maxGroups ∧
      (0x66#8, 15#4) ∈ hexDigitTable ∧ afterThree.nibv = true ∧ afterThree.gcnt = 1) := by decide

/-- The buffer filled to its last cell: `MAX_GROUPS = 1`, the sixth character. -/
theorem witness_PutThirdByteAppendsItsGroup :
    ({ afterFive with params := one } : State).phase = .run ∧
    ({ afterFive with params := one } : State).pos.toNat ≠ 6 * one.maxGroups ∧
    (0x64#8, 13#4) ∈ hexDigitTable ∧ afterFive.nibv = true ∧ afterFive.gcnt = 2 ∧
    ({ afterFive with params := one } : State).olen.toNat + 4 ≤ 4 * one.maxGroups := by decide

/-- First in its pair, and second. -/
theorem witness_PutNonDigitRaisesInvalidHexDigit :
    afterOne.phase = .run ∧ afterOne.pos.toNat ≠ 6 * afterOne.params.maxGroups ∧ afterOne.nibv = true ∧
    afterTwo.phase = .run ∧ afterTwo.pos.toNat ≠ 6 * afterTwo.params.maxGroups ∧ afterTwo.nibv = false ∧
    (∀ n, (0x67#8, n) ∉ hexDigitTable) ∧ (∀ n, (0x41#8, n) ∉ hexDigitTable) := by decide

theorem witness_PutBeyondCapacityRaisesCapacityExceeded :
    fullOne.phase = .run ∧ fullOne.pos.toNat = 6 * fullOne.params.maxGroups := by decide

theorem witness_FaultEntryWritesExactlyThis :
    exec (.put 0x67) afterOne = .next { errDigit with responses := [⟨.fault, 1⟩] } ∧ afterOne.phase ≠ .err ∧
    ({ errDigit with responses := [⟨.fault, 1⟩] } : State).phase = .err :=
  ⟨rfl, by decide, rfl⟩

theorem witness_EndOnOddLengthRaisesInvalidHexLength :
    MachineInv afterThree ∧ afterThree.phase = .run ∧ afterThree.nibv = true := ⟨inv_afterThree, by decide⟩

/-- With output, and on the empty message. -/
theorem witness_EndOnWholeGroupsReleasesTheOutput :
    (afterSix.phase = .run ∧ afterSix.nibv = false ∧ afterSix.gcnt = 0) ∧
    (State.reset.phase = .run ∧ State.reset.nibv = false ∧ State.reset.gcnt = 0) := by decide

/-- One byte left, and two. -/
theorem witness_EndFlushesTheShortGroup :
    (afterTwo.phase = .run ∧ afterTwo.nibv = false ∧ afterTwo.gcnt ≠ 0 ∧ afterTwo.gcnt = 1 ∧
      afterTwo.olen.toNat + 4 ≤ 4 * afterTwo.params.maxGroups) ∧
    (afterFour.phase = .run ∧ afterFour.nibv = false ∧ afterFour.gcnt ≠ 0 ∧ afterFour.gcnt = 2 ∧
      afterFour.olen.toNat + 4 ≤ 4 * afterFour.params.maxGroups) := by decide

/-- Both ways an append comes about: a PUT below the capacity, and an END with no nibble waiting. -/
theorem witness_AppendAlwaysFits :
    (MachineInv afterFive ∧ afterFive.phase = .run ∧ afterFive.gcnt ≠ 0 ∧
      afterFive.pos.toNat ≠ afterFive.params.maxChars) ∧
    (MachineInv afterFour ∧ afterFour.phase = .run ∧ afterFour.gcnt ≠ 0 ∧ afterFour.nibv = false) :=
  ⟨⟨inv_afterFive, by decide⟩, ⟨inv_afterFour, by decide⟩⟩

/-! ## Witnesses: POP, RSR and refusals -/

theorem witness_PopReturnsTheNextCharacter :
    doneSSdt.phase = .done ∧ doneSSdt.rptr ≠ doneSSdt.olen ∧
    Memory.read doneSSdt.obuf doneSSdt.rptr.toNat = some 0x53 := by decide

theorem witness_PopAlwaysHasItsCharacter :
    MachineInv doneSSdt ∧ doneSSdt.phase = .done ∧ doneSSdt.rptr.toNat < doneSSdt.olen.toNat :=
  ⟨inv_doneSSdt, by decide⟩

/-- The first and the last register number, the first and the last number that names none, and an ERR state. -/
theorem witness_RsrReadsItsRegister :
    (Instr.rsrStatus, 0, statusWord errDigit) ∈ ([(.rsrStatus, 0, statusWord errDigit)] : List (Instr × Nat × Word32)) ∧
    (7 ≤ 7 ∧ 7 < 256) ∧ (7 ≤ 255 ∧ 255 < 256) ∧ MachineInv errDigit ∧ errDigit.phase = .err :=
  ⟨List.mem_cons_self, by decide, by decide, inv_errDigit, rfl⟩

/-- A state of each phase; in ERR, each of the three faults. -/
theorem witness_StatusFieldsAndValues :
    (MachineInv afterFive ∧ afterFive.phase = .run) ∧ (MachineInv doneSSdt ∧ doneSSdt.phase = .done) ∧
    (MachineInv errDigit ∧ errDigit.phase = .err) ∧ (MachineInv errLength ∧ errLength.phase = .err) ∧
    (MachineInv errCapacity ∧ errCapacity.phase = .err) :=
  ⟨⟨inv_afterFive, rfl⟩, ⟨inv_doneSSdt, rfl⟩, ⟨inv_errDigit, rfl⟩, ⟨inv_errLength, rfl⟩, ⟨inv_errCapacity, rfl⟩⟩

/-- Each way to be refused (table J). -/
theorem witness_RefusedCommandsChangeNothing :
    ((∃ c, Instr.put 0x34 = .put c) ∧ doneSSdt.phase ≠ .run) ∧ (Instr.endMsg = .endMsg ∧ errDigit.phase ≠ .run) ∧
    (Instr.pop = .pop ∧ afterOne.phase ≠ .done) ∧
    (Instr.pop = .pop ∧ doneRead.phase = .done ∧ doneRead.rptr = doneRead.olen) :=
  ⟨⟨⟨0x34, rfl⟩, by decide⟩, by decide, by decide, by decide⟩

theorem witness_RefusedExactlyByThePhaseTable :
    MachineInv afterTwo ∧ MachineInv doneSSdt ∧ MachineInv doneRead ∧ MachineInv errDigit :=
  ⟨inv_afterTwo, inv_doneSSdt, inv_doneRead, inv_errDigit⟩

/-! ## Witnesses: the whole machine -/

theorem witness_EveryStepKeepsTheInvariants :
    MachineInv (offering 0x164 afterFive) ∧
    step (offering 0x164 afterFive) = .next { afterSix with responses := [⟨.ok, 0⟩] } :=
  ⟨inv_offering_clr.2.1, rfl⟩

theorem witness_EveryStepKeepsMemoryCanonical :
    Memory.wf (offering 0x300 doneSSdt).obuf ∧
    step (offering 0x300 doneSSdt) = .next { doneSSdt with rptr := 1, responses := [⟨.ok, 0x53⟩] } :=
  ⟨by decide, rfl⟩

theorem witness_MachineNeverStops : MachineInv (offering 0x300 doneSSdt) := inv_offering_clr.2.2

/-- No event, the reset event, an illegal word, CLR, PUT of a digit and of none and beyond the capacity, END on both
lengths, POP and RSR: every clause has its step. -/
theorem witness_PhaseTransitions :
    step doneSSdt = .next doneSSdt ∧ step { errDigit with inputs := [.reset] } = .next State.reset ∧
    step (offering 0x201 doneSSdt) = .next { doneSSdt with responses := [⟨.illegal, 0⟩] } ∧
    legalWord 0x201 = false ∧
    step (offering 0x400 errDigit) = .next { State.reset with responses := [⟨.ok, 0⟩] } ∧
    encode .clr = 0x400 ∧
    step (offering 0x139 afterOne) = .next { afterTwo with responses := [⟨.ok, 0⟩] } ∧
    encode (.put 0x39) = 0x139 ∧ nib 0x39 ≠ none ∧
    step (offering 0x167 afterOne) = .next { errDigit with responses := [⟨.fault, 1⟩] } ∧ nib 0x67 = none ∧
    step (offering 0x167 fullOne) = .next { errCapacity with responses := [⟨.fault, 3⟩] } ∧
    fullOne.pos.toNat = fullOne.params.maxChars ∧
    step (offering 0x200 afterThree) = .next { errLength with responses := [⟨.fault, 2⟩] } ∧
    step (offering 0x200 afterSix) = .next { doneSSdt with responses := [⟨.ok, 4⟩] } ∧ encode .endMsg = 0x200 ∧
    step (offering 0x300 doneRead) = .next { doneRead with responses := [⟨.refused, 0⟩] } ∧ encode .pop = 0x300 ∧
    step (offering 0x506 errCapacity) = .next { errCapacity with responses := [⟨.ok, 1⟩] } ∧ encode .rsrCap = 0x506 := by
  refine ⟨rfl, rfl, rfl, by decide, rfl, by decide, rfl, by decide, by decide, rfl, by decide, rfl, by decide, rfl, rfl,
    by decide, rfl, by decide, rfl, by decide⟩

/-- A step of each of the three kinds: nothing written, a group appended, the buffer emptied. -/
theorem witness_OutputBufferOnlyGrows :
    (MachineInv (offering 0x300 doneSSdt) ∧
      step (offering 0x300 doneSSdt) = .next { doneSSdt with rptr := 1, responses := [⟨.ok, 0x53⟩] }) ∧
    (MachineInv (offering 0x164 afterFive) ∧
      step (offering 0x164 afterFive) = .next { afterSix with responses := [⟨.ok, 0⟩] }) ∧
    (MachineInv (offering 0x400 errDigit) ∧
      step (offering 0x400 errDigit) = .next { State.reset with responses := [⟨.ok, 0⟩] }) :=
  ⟨⟨inv_offering_clr.2.2, rfl⟩, ⟨inv_offering_clr.2.1, rfl⟩, ⟨inv_offering_clr.1, rfl⟩⟩

theorem witness_ErrPhaseIsSticky :
    (offering 0x200 errLength).phase = .err ∧
    ∀ e ∈ (offering 0x200 errLength).inputs, ∃ w, e = .command w ∧ w ≠ encode .clr := by
  refine ⟨rfl, fun e he => ⟨0x200, ?_, by decide⟩⟩
  exact List.mem_singleton.1 he

theorem witness_NoDataLeavesBeforeDone :
    afterThree.phase ≠ .done ∧
    exec .rsrStatus afterThree = .next { afterThree with responses := [⟨.ok, 0x30⟩] } ∧
    exec .rsrStatus { afterThree with obuf := cellsSSdt, nib := 9, b0 := 0xFF, b1 := 0x12 } =
      .next { afterThree with obuf := cellsSSdt, nib := 9, b0 := 0xFF, b1 := 0x12, responses := [⟨.ok, 0x30⟩] } :=
  ⟨by decide, rfl, rfl⟩

/-- Two different states of one instance before a CLR, and before a reset; both phases that refuse a PUT. -/
theorem witness_MessagesDoNotInfluenceOneAnother :
    doneRead.params = errDigit.params ∧ Input.command (encode .clr) = .command (encode .clr) ∧
    Input.reset = .reset ∧ doneRead.phase = .done ∧ errDigit.phase = .err := by decide

theorem witness_MachineComputesConvert :
    convert one (chars "4927") = .ok (chars "SScA") ∧ convert one [] = .ok [] := by decide +kernel

/-- Each of the three failures. -/
theorem witness_MachineReportsTheFailureOfConvert :
    convert one (chars "4g2") = .error ⟨.invalidHexDigit, 1, 0x67⟩ ∧
    convert one (chars "4") = .error ⟨.invalidHexLength, 1, 0x00⟩ ∧
    convert one (chars "fffffff") = .error ⟨.capacityExceeded, 6, 0x66⟩ := by decide +kernel

/-! ## Witnesses: the transformation -/

theorem witness_EveryByteIsOnePair : pair 4 9 = 0x49 := by decide

/-- The edges of the five ranges of R62. -/
theorem witness_AlphabetFormsAgree :
    (25#6).toNat ≤ 25 ∧ 26 ≤ (26#6).toNat ∧ (51#6).toNat ≤ 51 ∧ 52 ≤ (52#6).toNat ∧ (61#6).toNat ≤ 61 ∧
    (62#6).toNat = 62 ∧ (63#6).toNat = 63 ∧ b64char 0 = b64char 0 := by decide

theorem witness_OnlyAlphabetCharactersAppear :
    runSteps 1 { State.resetOf one with inputs := [.command 0x134] } =
      .next { State.resetOf one with pos := 1, nib := 4, nibv := true, responses := [⟨.ok, 0⟩] } ∧
    convert one (chars "49") = .ok (chars "SQAA") :=
  ⟨rfl, by decide +kernel⟩

/-- A bad character after good ones, the empty message, an odd and an even length. -/
theorem witness_HexDecodeReportsTheFirstDefect :
    (∀ d ∈ [0x34#8, 0x39#8], nib d ≠ none) ∧ nib 0x67 = none ∧ (∀ d ∈ ([] : List Byte), nib d ≠ none) ∧
    ([0x34#8].length % 2 = 1) ∧ ([0x34#8, 0x39#8].length % 2 = 0) ∧ 0 < [0x49#8].length ∧
    hexDecode [0x34, 0x39] = .ok [0x49] := by decide

theorem witness_HexDecodeHalvesTheLength : hexDecode [0x34, 0x39] = .ok [0x49] := by decide

theorem witness_ShortFinalGroupIsZeroFilled :
    [0x49#8, 0x27#8, 0x6D#8].length % 3 = 0 ∧ ([] : List Byte).length % 3 = 0 := by decide

theorem witness_OutputLengthLaw :
    convert one (chars "4927") = .ok (chars "SScA") ∧ MachineInv afterFour ∧ afterFour.phase = .run ∧
    ∃ t, exec .endMsg afterFour = .next t ∧ t.phase = .done :=
  ⟨by decide +kernel, inv_afterFour, rfl, _, rfl, rfl⟩

/-- At the capacity exactly, and one character beyond it. -/
theorem witness_ConvertIsTheSourcesComposition :
    (chars "ffffff").length ≤ one.maxChars ∧ (chars "ffffff").length = one.maxChars ∧
    ∀ d ∈ chars "ffffff", nib d ≠ none := by decide +kernel

end Sys2Proof.Tests
end

/-! SUPPORT. What every step keeps: the registers the host's ports do not reach, the output buffer, and the invariants of R31. -/

namespace Sys2Proof.Machine

/-! ## The ports are no registers -/

/-- A response changes no register (R55). -/
theorem respond_sameRegisters (st : RspStatus) (d : Word32) (s : State) : SameRegisters s (respond st d s) :=
  SameRegisters.ports s s.inputs (respond st d s).responses

/-- Taking an event from the host changes no register (R33). -/
theorem take_sameRegisters (s : State) (rest : List Input) : SameRegisters s { s with inputs := rest } :=
  SameRegisters.ports s rest s.responses

/-- CLR and the reset event leave the registers of the state after reset (R96, R123). -/
theorem clearState_sameRegisters (s : State) : SameRegisters (State.resetOf s.params) (clearState s) :=
  SameRegisters.ports (State.resetOf s.params) s.inputs s.responses

/-! ## The invariants of R31 speak of registers only -/

theorem phaseInv_of_run {s : State} (hp : s.phase = .run) : PhaseInv s ↔ RunInv s := by unfold PhaseInv; rw [hp]

theorem phaseInv_of_done {s : State} (hp : s.phase = .done) : PhaseInv s ↔ DoneInv s := by unfold PhaseInv; rw [hp]

theorem phaseInv_of_err {s : State} (hp : s.phase = .err) : PhaseInv s ↔ ErrInv s := by unfold PhaseInv; rw [hp]

/-- The invariants hold in every state with the same registers. -/
theorem SameRegisters.machineInv {s t : State} (h : SameRegisters s t) (hs : MachineInv s) : MachineInv t := by
  obtain ⟨h1, h2, h3, h4, h5, h6, h7, h8, h9, h10, h11, h12, h13, h14⟩ := h
  cases s with | mk _ phase => cases t with | mk =>
  subst h1 h2 h3 h4 h5 h6 h7 h8 h9 h10 h11 h12 h13 h14
  obtain ⟨⟨nib, b0, b1, cells, alphabet, mod, le⟩, hphase⟩ := hs
  refine ⟨⟨nib, b0, b1, cells, alphabet, mod, le⟩, ?_⟩
  cases phase with
  | run =>
    obtain ⟨nibv, gcnt, olen, pos, rptr, noFault⟩ := hphase
    exact ⟨nibv, gcnt, olen, pos, rptr, noFault⟩
  | done =>
    obtain ⟨even, nibv, gcnt, olen, rptr, noFault⟩ := hphase
    exact ⟨even, nibv, gcnt, olen, rptr, noFault⟩
  | err =>
    obtain ⟨errcode, olen, rptr, nibv, gcnt, pos, odd, capacity⟩ := hphase
    exact ⟨errcode, olen, rptr, nibv, gcnt, pos, odd, capacity⟩

/-! ## Counters do not wrap (R6, R8) -/

theorem toNat_pos_add_one {w : Word32} {p : Params} (h : w.toNat < p.maxChars) : (w + 1).toNat = w.toNat + 1 := by
  have hp : p.maxChars < 2 ^ 32 - 1 := by have := p.maxGroups_le; unfold Params.maxChars; omega
  bv_omega

theorem toNat_olen_add_four {w : Word32} {p : Params} (h : w.toNat + 4 ≤ p.maxOut) :
    (w + 4).toNat = w.toNat + 4 := by
  have hp : p.maxOut < 2 ^ 32 := by have := p.maxGroups_le; unfold Params.maxOut; omega
  bv_omega

/-! ## The output buffer -/

/-- The output buffer with its length and the parameter that bounds it (R21, R22, R35). -/
structure Output where
  params : Params
  cells : Memory
  length : Word32

/-- The output buffer of a state. -/
def State.output (s : State) : Output := ⟨s.params, s.obuf, s.olen⟩

/-- No output (R32, R110). -/
def Output.emptied (o : Output) : Output := { o with cells := [], length := 0 }

/-- Four characters appended at OLEN (R86). -/
def Output.append (o : Output) (q : Quad Byte) : Output :=
  { o with cells := Memory.writeFrom o.cells o.length.toNat q.toList, length := o.length + 4 }

/-- What a step can do to the output buffer (R37): nothing, empty it, or append one group's characters where there is room. -/
inductive OutputChange (o o' : Output) : Prop where
  | kept (h : o' = o)
  | emptied (h : o' = o.emptied)
  | appended (a b c : Byte) (hroom : o.length.toNat + 4 ≤ o.params.maxOut) (h : o' = o.append (encGroup a b c))

theorem pushByte_outputChange {b : Byte} {s t : State} (h : pushByte b s = .ok t) :
    OutputChange s.output t.output := by
  obtain ⟨-, rfl⟩ | ⟨-, rfl⟩ | ⟨-, hroom, rfl⟩ := pushByte_cases h
  · exact .kept rfl
  · exact .kept rfl
  · exact .appended _ _ _ hroom rfl

theorem flushGroup_outputChange {s t : State} (h : flushGroup s = .ok t) : OutputChange s.output t.output := by
  obtain ⟨-, rfl⟩ | ⟨-, hroom, _, _, -, -, rfl⟩ := flushGroup_cases h
  · exact .kept rfl
  · exact .appended _ _ _ hroom rfl

theorem acceptNibble_outputChange {n : Nibble} {s t : State} (h : acceptNibble n s = .ok t) :
    OutputChange s.output t.output := by
  obtain ⟨-, rfl⟩ | ⟨-, u, hu, rfl⟩ := acceptNibble_cases h
  · exact .kept rfl
  · exact (pushByte_outputChange hu :)

theorem exec_outputChange {i : Instr} {s t : State} (h : exec i s = .next t) : OutputChange s.output t.output := by
  cases exec_next h with
  | refused _ ht => exact .kept (ht ▸ rfl)
  | faulted _ _ _ ht _ => exact .emptied (ht ▸ rfl)
  | accepted _ _ _ _ _ _ ht => exact acceptNibble_outputChange ht
  | finished u _ _ _ hu ht => exact ht ▸ (flushGroup_outputChange hu :)
  | popped _ _ _ _ _ ht => exact .kept (ht ▸ rfl)
  | cleared _ ht => exact .emptied (ht ▸ rfl)
  | status _ _ ht => exact .kept (ht ▸ rfl)

theorem step_outputChange {s t : State} (h : step s = .next t) : OutputChange s.output t.output := by
  obtain ⟨-, rfl⟩ | ⟨_, -, rfl⟩ | ⟨_, _, _, -, -, he⟩ | ⟨_, _, _, -, -, rfl⟩ := step_next h
  · exact .kept rfl
  · exact .emptied rfl
  · exact (exec_outputChange he :)
  · exact .kept rfl

/-- Every change of the output buffer keeps the canonical form of its cells. -/
theorem OutputChange.keeps_wf {o o' : Output} (h : OutputChange o o') (ho : Memory.wf o.cells) : Memory.wf o'.cells := by
  cases h with
  | kept h => exact h ▸ ho
  | emptied h => exact h ▸ Memory.wf_nil
  | appended a b c _ h => exact h ▸ Memory.writeFrom_wf _ _ ho

/-- Settles O34: every step changes OBUF by one of the changes of R37, and those keep the canonical form. -/
theorem everyStepKeepsMemoryCanonical : Obligations.EveryStepKeepsMemoryCanonical :=
  fun _ _ hwf h => (step_outputChange h).keeps_wf hwf

/-! ## R31(e), the output buffer -/

theorem b64char_mem_alphabet : ∀ v : Sextet, b64char v ∈ base64Alphabet := by decide

/-- Every character of an encoded group is of the alphabet (R63). -/
theorem mem_alphabet_of_mem_encGroup {a b c x : Byte} (h : x ∈ (encGroup a b c).toList) : x ∈ base64Alphabet := by
  simp only [encGroup, Quad.map, Quad.toList, List.mem_cons, List.not_mem_nil, or_false] at h
  rcases h with rfl | rfl | rfl | rfl <;> exact b64char_mem_alphabet _

/-- The part of R31(e) that speaks of the output buffer (R21, R63). -/
structure OutputInv (o : Output) : Prop where
  cells : o.cells.map Prod.fst = List.range o.length.toNat
  alphabet : ∀ x ∈ o.cells.map Prod.snd, x ∈ base64Alphabet
  length_mod : o.length.toNat % 4 = 0
  length_le : o.length.toNat ≤ o.params.maxOut

theorem OutputInv.emptied (o : Output) : OutputInv o.emptied := ⟨rfl, by simp [Output.emptied], rfl, Nat.zero_le _⟩

theorem OutputInv.append {o : Output} (h : OutputInv o) (hroom : o.length.toNat + 4 ≤ o.params.maxOut) (a b c : Byte) :
    OutputInv (o.append (encGroup a b c)) := by
  have hlen : (o.append (encGroup a b c)).length.toNat = o.length.toNat + 4 := toNat_olen_add_four hroom
  obtain ⟨hfst, hsnd⟩ := Memory.writeFrom_appends h.cells (encGroup a b c).toList
  have halphabet : ∀ x ∈ (o.append (encGroup a b c)).cells.map Prod.snd, x ∈ base64Alphabet := by
    intro x hx
    rcases List.mem_append.1 (hsnd ▸ hx) with hx | hx
    · exact h.alphabet x hx
    · exact mem_alphabet_of_mem_encGroup hx
  constructor
  · rw [hlen]; exact hfst
  · exact halphabet
  · rw [hlen, Nat.add_mod_right, h.length_mod]
  · rw [hlen]; exact hroom

theorem OutputChange.keeps_inv {o o' : Output} (h : OutputChange o o') (ho : OutputInv o) : OutputInv o' := by
  cases h with
  | kept h => exact h ▸ ho
  | emptied h => exact h ▸ OutputInv.emptied o
  | appended a b c hroom h => exact h ▸ ho.append hroom a b c

/-! ## R31(e), the registers without live data -/

/-- The part of R31(e) that speaks of NIB, B0 and B1. -/
structure IdleInv (s : State) : Prop where
  nib : s.nibv = false → s.nib = 0
  b0 : s.gcnt = 0 → s.b0 = 0
  b1 : s.gcnt.val < 2 → s.b1 = 0

theorem dataInv_iff {s : State} : DataInv s ↔ IdleInv s ∧ OutputInv s.output := by
  constructor
  · intro ⟨nib, b0, b1, cells, alphabet, mod, le⟩
    exact ⟨⟨nib, b0, b1⟩, cells, List.forall_mem_map.2 alphabet, mod, le⟩
  · intro ⟨⟨nib, b0, b1⟩, cells, alphabet, mod, le⟩
    exact ⟨nib, b0, b1, cells, List.forall_mem_map.1 alphabet, mod, le⟩

theorem pushByte_idleInv {b : Byte} {s t : State} (hs : IdleInv s) (h : pushByte b s = .ok t) : IdleInv t := by
  obtain ⟨hg, rfl⟩ | ⟨-, rfl⟩ | ⟨-, -, rfl⟩ := pushByte_cases h
  · exact ⟨hs.nib, nofun, fun _ => hs.b1 (by simp [hg])⟩
  · exact ⟨hs.nib, nofun, fun h => absurd h (Nat.lt_irrefl 2)⟩
  · exact ⟨hs.nib, fun _ => rfl, fun _ => rfl⟩

theorem acceptNibble_idleInv {n : Nibble} {s t : State} (hs : IdleInv s) (h : acceptNibble n s = .ok t) : IdleInv t := by
  obtain ⟨-, rfl⟩ | ⟨-, u, hu, rfl⟩ := acceptNibble_cases h
  · exact ⟨nofun, hs.b0, hs.b1⟩
  · have hwaiting : IdleInv { s with nib := 0, nibv := false } := ⟨fun _ => rfl, hs.b0, hs.b1⟩
    obtain ⟨nib, b0, b1⟩ := pushByte_idleInv hwaiting hu
    exact ⟨nib, b0, b1⟩

/-! ## What the shared operations leave unchanged, and the counters -/

theorem pushByte_frame {b : Byte} {s t : State} (h : pushByte b s = .ok t) :
    t = { s with b0 := t.b0, b1 := t.b1, gcnt := t.gcnt, obuf := t.obuf, olen := t.olen } := by
  obtain ⟨-, rfl⟩ | ⟨-, rfl⟩ | ⟨-, -, rfl⟩ := pushByte_cases h <;> rfl

theorem flushGroup_frame {s t : State} (h : flushGroup s = .ok t) : t = { s with obuf := t.obuf, olen := t.olen } := by
  obtain ⟨-, rfl⟩ | ⟨-, -, _, _, -, -, rfl⟩ := flushGroup_cases h <;> rfl

theorem acceptNibble_frame {n : Nibble} {s t : State} (h : acceptNibble n s = .ok t) :
    t = { s with
      pos := s.pos + 1, nib := t.nib, nibv := !s.nibv, b0 := t.b0, b1 := t.b1, gcnt := t.gcnt
      obuf := t.obuf, olen := t.olen, responses := s.responses ++ [⟨.ok, 0⟩] } := by
  obtain ⟨hv, rfl⟩ | ⟨hv, u, hu, rfl⟩ := acceptNibble_cases h
  · rw [hv]; rfl
  · rw [hv, pushByte_frame hu]; rfl

/-- GCNT and OLEN count the bytes pushed: four characters for every third (R83). -/
theorem pushByte_counters {b : Byte} {s t : State} (h : pushByte b s = .ok t) :
    t.gcnt.val = (s.gcnt.val + 1) % 3 ∧ t.olen.toNat = s.olen.toNat + 4 * ((s.gcnt.val + 1) / 3) := by
  obtain ⟨hg, rfl⟩ | ⟨hg, rfl⟩ | ⟨hg, hroom, rfl⟩ := pushByte_cases h
  · simp [hg]
  · simp [hg]
  · rw [hg]
    exact ⟨rfl, toNat_olen_add_four hroom⟩

/-- Of two digits, the second counts a byte (R74). -/
theorem acceptNibble_counters {n : Nibble} {s t : State} (h : acceptNibble n s = .ok t) :
    t.gcnt.val = (s.gcnt.val + s.nibv.toNat) % 3 ∧
    t.olen.toNat = s.olen.toNat + 4 * ((s.gcnt.val + s.nibv.toNat) / 3) := by
  obtain ⟨hv, rfl⟩ | ⟨hv, u, hu, rfl⟩ := acceptNibble_cases h
  · simp [hv, Nat.mod_eq_of_lt s.gcnt.isLt, Nat.div_eq_of_lt s.gcnt.isLt]
  · rw [hv]
    exact (pushByte_counters hu :)

/-- The last group of a message, short or not, is four characters unless it is empty (R87, R89). -/
theorem flushGroup_olen {s t : State} (h : flushGroup s = .ok t) :
    t.olen.toNat = s.olen.toNat + 4 * groupCount s.gcnt.val := by
  obtain ⟨hg, rfl⟩ | ⟨hg, hroom, _, _, -, -, rfl⟩ := flushGroup_cases h
  · simp [hg, groupCount]
  · have hone : groupCount s.gcnt.val = 1 := by unfold groupCount; omega
    rw [hone]
    exact toNat_olen_add_four hroom

/-! ## The invariants at reset and after every command -/

/-- The state after reset meets R31, whatever MAX_GROUPS is. -/
theorem resetOf_machineInv (p : Params) : MachineInv (State.resetOf p) where
  data := dataInv_iff.2 ⟨⟨fun _ => rfl, fun _ => rfl, fun _ => rfl⟩, OutputInv.emptied (State.resetOf p).output⟩
  phase := (phaseInv_of_run rfl).2 ⟨by simp, by simp, by simp, Nat.zero_le _, rfl, rfl, rfl, rfl⟩

theorem clearState_machineInv (s : State) : MachineInv (clearState s) :=
  (clearState_sameRegisters s).machineInv (resetOf_machineInv s.params)

/-- The fault entry meets R31(d) when the fault is one that POS and the character can have (R105, R110). -/
theorem raiseFault_machineInv {f : MsgFault} {c : Byte} {s : State}
    (hodd : f = .invalidHexLength → s.pos.toNat % 2 = 1 ∧ c = 0)
    (hcap : f = .capacityExceeded → s.pos.toNat = s.params.maxChars) : MachineInv (raiseFault f s.pos c s) where
  data := dataInv_iff.2 ⟨⟨fun _ => rfl, fun _ => rfl, fun _ => rfl⟩, OutputInv.emptied s.output⟩
  phase := (phaseInv_of_err rfl).2
    ⟨nofun, rfl, rfl, rfl, rfl, rfl, fun h => hodd (Option.some.inj h), fun h => hcap (Option.some.inj h)⟩

/-- NIBV is the lowest bit of POS (R31(b)). -/
theorem RunInv.nibv_toNat {s : State} (h : RunInv s) : s.nibv.toNat = s.pos.toNat % 2 := by
  rw [h.nibv]
  rcases Nat.mod_two_eq_zero_or_one s.pos.toNat with h | h <;> simp [h]

/-- An accepted digit moves POS and the flags and counters that follow from it (R31(b), R74). -/
theorem acceptNibble_runInv {n : Nibble} {s t : State} (hs : RunInv s) (hc : s.pos.toNat ≠ s.params.maxChars)
    (h : acceptNibble n s = .ok t) : RunInv t := by
  have hroom : s.pos.toNat < s.params.maxChars := lt_of_le_of_ne hs.pos_le hc
  have hframe := acceptNibble_frame h
  have hpos : t.pos.toNat = s.pos.toNat + 1 := by rw [hframe]; exact toNat_pos_add_one hroom
  have hnibv : t.nibv = !s.nibv := by rw [hframe]
  have hparams : t.params = s.params := by rw [hframe]
  obtain ⟨hgcnt, holen⟩ := acceptNibble_counters h
  rw [hs.nibv_toNat, hs.gcnt] at hgcnt holen
  rw [hs.olen] at holen
  exact {
    nibv := by rw [hnibv, hs.nibv, hpos, ← decide_not, decide_eq_decide]; omega
    gcnt := by omega
    olen := by omega
    pos_le := by rw [hpos, hparams]; exact hroom
    rptr := by rw [hframe]; exact hs.rptr
    noFault := by rw [hframe]; exact hs.noFault }

theorem acceptNibble_machineInv {n : Nibble} {s t : State} (hs : MachineInv s) (hp : s.phase = .run)
    (hc : s.pos.toNat ≠ s.params.maxChars) (h : acceptNibble n s = .ok t) : MachineInv t := by
  obtain ⟨hidle, hout⟩ := dataInv_iff.1 hs.data
  have hpt : t.phase = .run := by rw [acceptNibble_frame h]; exact hp
  exact ⟨dataInv_iff.2 ⟨acceptNibble_idleInv hidle h, (acceptNibble_outputChange h).keeps_inv hout⟩,
    (phaseInv_of_run hpt).2 (acceptNibble_runInv ((phaseInv_of_run hp).1 hs.phase) hc h)⟩

/-- END on an even number of characters leaves OLEN at four characters per group, the last one filled up (R31(c), R90). -/
theorem finishMessage_doneInv {s u : State} (hs : RunInv s) (hv : s.nibv = false) (hu : flushGroup s = .ok u) :
    DoneInv (finishMessage u) := by
  have heven : s.pos.toNat % 2 = 0 := by rw [← hs.nibv_toNat, hv]; rfl
  have holen : u.olen.toNat = 4 * groupCount (s.pos.toNat / 2) := by
    rw [flushGroup_olen hu, hs.olen, hs.gcnt]
    unfold groupCount
    omega
  have hframe := flushGroup_frame hu
  have hpos : u.pos = s.pos := by rw [hframe]
  have hrptr : u.rptr = 0 := by rw [hframe]; exact hs.rptr
  exact {
    pos_even := hpos ▸ heven
    nibv := show u.nibv = false by rw [hframe]; exact hv
    gcnt := rfl
    olen := hpos ▸ holen
    rptr_le := show u.rptr.toNat ≤ _ by rw [hrptr]; exact Nat.zero_le _
    noFault := show NoFaultRecorded u by rw [hframe]; exact hs.noFault }

theorem finishMessage_machineInv {s u : State} (hs : MachineInv s) (hp : s.phase = .run) (hv : s.nibv = false)
    (hu : flushGroup s = .ok u) : MachineInv (finishMessage u) := by
  obtain ⟨hidle, hout⟩ := dataInv_iff.1 hs.data
  have hnib : u.nib = 0 := by rw [flushGroup_frame hu]; exact hidle.nib hv
  exact ⟨dataInv_iff.2 ⟨⟨fun _ => hnib, fun _ => rfl, fun _ => rfl⟩, (flushGroup_outputChange hu).keeps_inv hout⟩,
    (phaseInv_of_done rfl).2 (finishMessage_doneInv ((phaseInv_of_run hp).1 hs.phase) hv hu)⟩

/-- POP below OLEN keeps RPTR within OLEN (R31(c), R95). -/
theorem advanceRptr_machineInv {s : State} (hs : MachineInv s) (hp : s.phase = .done) (hr : s.rptr ≠ s.olen) :
    MachineInv { s with rptr := s.rptr + 1 } := by
  obtain ⟨even, nibv, gcnt, olen, rptr_le, noFault⟩ := (phaseInv_of_done hp).1 hs.phase
  obtain ⟨hidle, hout⟩ := dataInv_iff.1 hs.data
  have hrptr : (s.rptr + 1).toNat ≤ s.olen.toNat := by bv_omega
  exact ⟨dataInv_iff.2 ⟨⟨hidle.nib, hidle.b0, hidle.b1⟩, hout⟩,
    (phaseInv_of_done (s := { s with rptr := s.rptr + 1 }) hp).2 ⟨even, nibv, gcnt, olen, hrptr, noFault⟩⟩

/-! ## Every command and every step keeps the invariants -/

/-- Every command keeps the invariants of R31. -/
theorem exec_machineInv {i : Instr} {s t : State} (hs : MachineInv s) (h : exec i s = .next t) : MachineInv t := by
  cases exec_next h with
  | refused _ ht => exact ht ▸ (respond_sameRegisters _ _ s).machineInv hs
  | faulted f c hp ht hi =>
    have hnibv := ((phaseInv_of_run hp).1 hs.phase).nibv
    subst ht
    obtain ⟨-, rfl, hc⟩ | ⟨-, rfl, -, -⟩ | ⟨-, rfl, rfl, hv⟩ := hi
    · exact raiseFault_machineInv nofun fun _ => hc
    · exact raiseFault_machineInv nofun nofun
    · exact raiseFault_machineInv (fun _ => ⟨of_decide_eq_true (hnibv ▸ hv), rfl⟩) nofun
  | accepted c n hp _ _ hc ht => exact acceptNibble_machineInv hs hp hc ht
  | finished u hp _ hv hu ht => exact ht ▸ finishMessage_machineInv hs hp hv hu
  | popped v hp _ hr _ ht => exact ht ▸ (respond_sameRegisters _ _ _).machineInv (advanceRptr_machineInv hs hp hr)
  | cleared _ ht => exact ht ▸ (respond_sameRegisters _ _ _).machineInv (clearState_machineInv s)
  | status _ _ ht => exact ht ▸ (respond_sameRegisters _ _ s).machineInv hs

/-- Every step keeps the invariants of R31. -/
theorem step_machineInv {s t : State} (hs : MachineInv s) (h : step s = .next t) : MachineInv t := by
  obtain ⟨-, rfl⟩ | ⟨rest, -, rfl⟩ | ⟨_, rest, _, -, -, he⟩ | ⟨_, rest, _, -, -, rfl⟩ := step_next h
  · exact hs
  · exact clearState_machineInv _
  · exact exec_machineInv ((take_sameRegisters s rest).machineInv hs) he
  · exact (respond_sameRegisters _ _ _).machineInv ((take_sameRegisters s rest).machineInv hs)

/-- Settles O33: the state after reset meets R31, and so does what each command and each event makes of a state that does. -/
theorem everyStepKeepsTheInvariants : Obligations.EveryStepKeepsTheInvariants :=
  ⟨resetOf_machineInv, fun _ _ => step_machineInv⟩

/-- Settles O32: MAX_GROUPS = 16 is one of the values that `resetOf_machineInv` speaks of. -/
theorem resetMeetsTheInvariants : Obligations.ResetMeetsTheInvariants := resetOf_machineInv Params.default

/-! ## The values after reset and CLR -/

/-- Settles O12: both leave the registers of `State.resetOf`, whose cells are none (R32). -/
theorem resetValues : Obligations.ResetValues := by
  intro s hs
  have hregs : ∃ p, SameRegisters (State.resetOf p) s := by
    obtain rfl | ⟨p, rfl⟩ | ⟨u, hu⟩ := hs
    · exact ⟨Params.default, SameRegisters.refl _⟩
    · exact ⟨p, SameRegisters.refl _⟩
    · exact ⟨u.params, next_inj hu ▸ (clearState_sameRegisters u).trans (respond_sameRegisters _ _ _)⟩
  obtain ⟨p, -, phase, pos, nib, nibv, b0, b1, gcnt, obuf, olen, rptr, errcode, errpos, errchar⟩ := hregs
  exact ⟨phase.symm, pos.symm, nib.symm, nibv.symm, b0.symm, b1.symm, gcnt.symm, olen.symm, rptr.symm,
    fun i => obuf ▸ Memory.read_nil i, errcode.symm, errpos.symm, errchar.symm⟩

/-! ## The level outputs -/

theorem doneOut_iff (s : State) : doneOut s = true ↔ s.phase = .done := beq_iff_eq

theorem errOut_iff (s : State) : errOut s = true ↔ s.phase = .err := beq_iff_eq

/-- Settles O13: each output is 1 in its phase only (R34). -/
theorem levelOutputsMirrorPhase : Obligations.LevelOutputsMirrorPhase := by
  refine ⟨fun s => ⟨doneOut_iff s, errOut_iff s, ?_⟩, fun s t h => ?_, fun p => ⟨rfl, rfl⟩⟩
  · rw [doneOut_iff, errOut_iff]
    rintro ⟨hd, he⟩
    exact nomatch hd.symm.trans he
  · exact ⟨congrArg (· == .done) h, congrArg (· == .err) h⟩

/-! ## STATUS -/

/-- A concatenation as a number: the high part above the low one. -/
theorem toNat_append_eq_add {n m : Nat} (x : BitVec n) (y : BitVec m) :
    (x ++ y).toNat = x.toNat * 2 ^ m + y.toNat := by
  rw [BitVec.toNat_append, ← Nat.shiftLeft_add_eq_or_of_lt y.isLt, Nat.shiftLeft_eq]

theorem gcntBits_toNat (g : Fin 3) : (gcntBits g).toNat = g.val :=
  Nat.mod_eq_of_lt (g.isLt.trans (by decide))

/-- STATUS is the sum of its fields, each at the place of R29. -/
theorem statusWord_toNat (s : State) : (statusWord s).toNat =
    s.gcnt.val * 32 + s.nibv.toNat * 16 + (errcodeBits s.errcode).toNat * 4 + s.phase.code.toNat := by
  have hv : s.nibv.toNat < 2 := s.nibv.toNat_lt
  have he := (errcodeBits s.errcode).isLt
  have hp := s.phase.code.isLt
  simp only [statusWord, zext32, BitVec.toNat_setWidth, toNat_append_eq_add, BitVec.toNat_ofBool, gcntBits_toNat]
  omega

/-- NIBV at its place in STATUS. -/
theorem nibv_toNat_mul (b : Bool) : b.toNat * 16 = if b then 16 else 0 := by cases b <;> rfl

/-! The values of STATUS under R31, phase by phase (R29). -/

theorem statusWord_of_run {s : State} (hs : MachineInv s) (hp : s.phase = .run) :
    (statusWord s).toNat = (if s.nibv then 0x10 else 0) + 0x20 * s.gcnt.val := by
  have herr : s.errcode = none := ((phaseInv_of_run hp).1 hs.phase).noFault.1
  have hnone : (errcodeBits none).toNat = 0 := rfl
  have hrun : Phase.run.code.toNat = 0 := rfl
  rw [statusWord_toNat, herr, hp, nibv_toNat_mul]
  omega

theorem statusWord_of_done {s : State} (hs : MachineInv s) (hp : s.phase = .done) : statusWord s = 0x01 := by
  obtain ⟨-, hnibv, hgcnt, -, -, herr, -, -⟩ := (phaseInv_of_done hp).1 hs.phase
  rw [statusWord, hnibv, hgcnt, herr, hp]
  rfl

theorem statusWord_of_err {s : State} (hs : MachineInv s) (hp : s.phase = .err) :
    statusWord s = 0x06 ∨ statusWord s = 0x0A ∨ statusWord s = 0x0E := by
  obtain ⟨herr, -, -, hnibv, hgcnt, -, -, -⟩ := (phaseInv_of_err hp).1 hs.phase
  obtain ⟨f, hf⟩ := Option.ne_none_iff_exists'.1 herr
  rw [statusWord, hnibv, hgcnt, hf, hp]
  cases f with
  | invalidHexDigit => exact .inl rfl
  | invalidHexLength => exact .inr (.inl rfl)
  | capacityExceeded => exact .inr (.inr rfl)

/-- Settles O29: the fields add up at their places, and R31 fixes the fields in each phase. -/
theorem statusFieldsAndValues : Obligations.StatusFieldsAndValues := by
  refine ⟨fun s => ?_, fun s hs => ⟨statusWord_of_run hs, statusWord_of_done hs, statusWord_of_err hs⟩⟩
  rw [statusWord_toNat, nibv_toNat_mul]
  congr 1
  · congr 1
    rcases s.errcode with _ | _ | _ | _ <;> rfl
  · cases s.phase <;> rfl

end Sys2Proof.Machine

/-! SUPPORT. How the host's words reach the commands, and how the output buffer fills: room for every group, growth only at the
end, and no data of the message in a response before DONE (spec/20_memory.md R37, R38, R46). -/

namespace Sys2Proof

/-! ## Decoding and encoding are inverse (R51, R52) -/

@[simp] theorem opField_commandWord (op : BitVec 4) (imm : BitVec 8) : opField (commandWord op imm) = op :=
  BitVec.extractLsb'_append_eq_left

@[simp] theorem immField_commandWord (op : BitVec 4) (imm : BitVec 8) : immField (commandWord op imm) = imm :=
  BitVec.extractLsb'_append_eq_right

/-- A word is its two fields. -/
theorem commandWord_fields (w : Command) : commandWord (opField w) (immField w) = w :=
  (BitVec.extractLsb'_append_extractLsb'_eq_extractLsb' rfl).trans BitVec.extractLsb'_eq_self

/-- The encoding of a command decodes to it. -/
theorem decode_encode (i : Instr) : decode (encode i) = .ok i := by
  cases i with
  | put c => simp [encode, decode]
  | _ => rfl

/-- A word without operand, when it is legal, is the encoding of its command. -/
theorem encode_of_decodePlain {i j : Instr} {op : BitVec 4} {imm : BitVec 8} (hj : encode j = commandWord op 0x00#8)
    (h : decodePlain j op imm = .ok i) : encode i = commandWord op imm := by
  unfold decodePlain at h
  split at h
  · next himm => rw [himm, ← Except.ok.inj h, hj]
  · cases h

theorem encode_of_decodeRsr {i : Instr} {imm : BitVec 8} (h : decodeRsr imm = .ok i) :
    encode i = commandWord 0x5#4 imm := by
  unfold decodeRsr at h
  split_ifs at h <;> cases h
  all_goals simp only [encode, *]

/-- A word that decodes to a command is its encoding: no bit of the word is dropped. -/
theorem encode_of_decode {w : Command} {i : Instr} (h : decode w = .ok i) : encode i = w := by
  rw [← commandWord_fields w]
  simp only [decode] at h
  split_ifs at h with hput hend hpop hclr hrsr
  · rw [hput, ← Except.ok.inj h]; rfl
  · exact encode_of_decodePlain (by rw [hend]; rfl) h
  · exact encode_of_decodePlain (by rw [hpop]; rfl) h
  · exact encode_of_decodePlain (by rw [hclr]; rfl) h
  · rw [hrsr]; exact encode_of_decodeRsr h

/-- A 12-bit word is readable from every container of at least 12 bits (log entry 10). -/
theorem tableWord_toNat {nbits : Nat} (h : 12 ≤ nbits) (w : Command) : tableWord nbits w.toNat = some w := by
  have hfits : w.toNat < 2 ^ nbits := w.isLt.trans_le (Nat.pow_le_pow_right (by decide) h)
  have hword : w.toNat < 4096 := w.isLt
  simp [tableWord, Nat.mod_eq_of_lt hfits, hword]

end Sys2Proof

namespace Sys2Proof.Machine

/-! ## The step and the word it takes (R46) -/

/-- Settles O6: the step's own branch for a legal word. -/
theorem stepRunsTheDecodedCommand : Obligations.StepRunsTheDecodedCommand := by
  intro s w rest i hin hdec
  simp only [step, hin, hdec]

/-- Settles O7: the container gives the word back, it decodes to its command, and the step takes it (O6). -/
theorem fetchedWordRunsNext : Obligations.FetchedWordRunsNext := by
  intro s i nbits hbits
  have hword := tableWord_toNat hbits (encode i)
  refine ⟨by simp only [decodeTableWord, hword, decode_encode], ?_⟩
  rw [State.withFetchWord, hword]
  exact stepRunsTheDecodedCommand (offer (.command (encode i)) s) (encode i) s.inputs i rfl (decode_encode i)

/-! ## Room for every group (R37, R91(g)) -/

/-- With a byte waiting, POS is inside a group, so OLEN counts the characters of fewer than MAX_GROUPS whole groups. -/
theorem RunInv.room {s : State} (h : RunInv s) (hg : s.gcnt ≠ 0) : s.olen.toNat + 4 ≤ s.params.maxOut := by
  have hwaiting : s.pos.toNat / 2 % 3 ≠ 0 := h.gcnt ▸ Fin.val_ne_iff.2 hg
  have hpos : s.pos.toNat ≤ 6 * s.params.maxGroups := h.pos_le
  rw [h.olen, Params.maxOut]
  omega

/-- Settles O24: the room follows from the byte waiting alone, so the premise on POS and NIBV is not needed. -/
theorem appendAlwaysFits : Obligations.AppendAlwaysFits :=
  fun _ hs hp hg _ => ((phaseInv_of_run hp).1 hs.phase).room hg

/-! ## The output buffer grows by whole groups (R37) -/

/-- The output buffer stays as it is, or one group's characters are appended where there is room: what PUT and END do to it
unless they fault. -/
def Output.KeptOrAppended (o o' : Output) : Prop :=
  o' = o ∨ o.length.toNat + 4 ≤ o.params.maxOut ∧ ∃ a b c, o' = o.append (encGroup a b c)

theorem acceptNibble_keptOrAppended {n : Nibble} {s t : State} (h : acceptNibble n s = .ok t) :
    s.output.KeptOrAppended t.output := by
  obtain ⟨-, rfl⟩ | ⟨-, u, hu, rfl⟩ := acceptNibble_cases h
  · exact .inl rfl
  · obtain ⟨-, rfl⟩ | ⟨-, rfl⟩ | ⟨-, hroom, rfl⟩ := pushByte_cases hu
    · exact .inl rfl
    · exact .inl rfl
    · exact .inr ⟨hroom, _, _, _, rfl⟩

theorem flushGroup_keptOrAppended {s t : State} (h : flushGroup s = .ok t) : s.output.KeptOrAppended t.output := by
  obtain ⟨-, rfl⟩ | ⟨-, hroom, a, b, -, -, rfl⟩ := flushGroup_cases h
  · exact .inl rfl
  · exact .inr ⟨hroom, a, b, _, rfl⟩

/-- From `s` to `t` in RUN the four characters of one group were appended to OBUF, within the buffer (R37). -/
def GroupAppended (s t : State) : Prop :=
  s.phase = .run ∧ (t.phase = .run ∨ t.phase = .done) ∧
    s.olen.toNat + 4 ≤ s.params.maxOut ∧ t.olen = s.olen + 4 ∧
    ∃ a b c, t.obuf.map Prod.snd = s.obuf.map Prod.snd ++ (encGroup a b c).toList

theorem Output.KeptOrAppended.obuf {s t : State} (h : s.output.KeptOrAppended t.output) (hs : DataInv s)
    (hp : s.phase = .run) (hpt : t.phase = .run ∨ t.phase = .done) : t.obuf = s.obuf ∨ GroupAppended s t := by
  obtain hkept | ⟨hroom, a, b, c, happ⟩ := h
  · exact .inl (congrArg Output.cells hkept)
  · have hcells : t.obuf = Memory.writeFrom s.obuf s.olen.toNat (encGroup a b c).toList := congrArg Output.cells happ
    have hlen : t.olen = s.olen + 4 := congrArg Output.length happ
    exact .inr ⟨hp, hpt, hroom, hlen, a, b, c, hcells ▸ (Memory.writeFrom_appends hs.cells _).2⟩

/-- What a command does to OBUF, and which command empties it. -/
theorem exec_obuf {i : Instr} {s t : State} (hs : DataInv s) (h : exec i s = .next t) :
    (t.obuf = s.obuf ∨ GroupAppended s t) ∨ t.obuf = [] ∧ (i = .clr ∨ s.phase = .run ∧ t.phase = .err) := by
  cases exec_next h with
  | refused _ ht => exact .inl (.inl (ht ▸ rfl))
  | faulted _ _ hp ht _ => subst ht; exact .inr ⟨rfl, .inr ⟨hp, rfl⟩⟩
  | accepted _ _ hp _ _ _ ht =>
    have hpt : t.phase = .run := by rw [acceptNibble_frame ht]; exact hp
    exact .inl ((acceptNibble_keptOrAppended ht).obuf hs hp (.inl hpt))
  | finished u hp _ _ hu ht =>
    subst ht
    have hout : s.output.KeptOrAppended (finishMessage u).output := (flushGroup_keptOrAppended hu :)
    exact .inl (hout.obuf hs hp (.inr rfl))
  | popped _ _ _ _ _ ht => exact .inl (.inl (ht ▸ rfl))
  | cleared hi ht => exact .inr ⟨ht ▸ rfl, .inl hi⟩
  | status _ _ ht => exact .inl (.inl (ht ▸ rfl))

/-- Settles O37: of the events only the reset empties OBUF; a command does to it what `exec_obuf` says. -/
theorem outputBufferOnlyGrows : Obligations.OutputBufferOnlyGrows := by
  intro s t hs h
  obtain ⟨-, rfl⟩ | ⟨rest, hin, rfl⟩ | ⟨w, rest, i, hin, hdec, he⟩ | ⟨_, _, _, -, -, rfl⟩ := step_next h
  · exact .inl rfl
  · exact .inr (.inr ⟨rfl, .inl ⟨rest, hin⟩⟩)
  · have htaken : DataInv { s with inputs := rest } := ((take_sameRegisters s rest).machineInv hs).data
    obtain (hkept | happ) | ⟨hempty, rfl | hfault⟩ := exec_obuf htaken he
    · exact .inl hkept
    · exact .inr (.inl happ)
    · exact .inr (.inr ⟨hempty, .inr (.inl ⟨rest, encode_of_decode hdec ▸ hin⟩)⟩)
    · exact .inr (.inr ⟨hempty, .inr (.inr hfault)⟩)
  · exact .inl rfl

/-! ## No data in a response before DONE (R38) -/

/-- The response to a command outside DONE and the phase after it, from the registers that hold no data of the message:
neither OBUF nor NIB, B0, B1 is read. -/
def replyBeforeDone (s : State) : Instr → Response × Phase
  | .put c =>
    if s.phase = .run then
      if s.pos.toNat = s.params.maxChars then (⟨.fault, 3⟩, .err)
      else if nib c = none then (⟨.fault, 1⟩, .err) else (⟨.ok, 0⟩, .run)
    else (⟨.refused, 0⟩, s.phase)
  | .endMsg =>
    if s.phase = .run then
      if s.nibv then (⟨.fault, 2⟩, .err)
      else (⟨.ok, if s.gcnt = 0 then s.olen else s.olen + 4⟩, .done)
    else (⟨.refused, 0⟩, s.phase)
  | .pop => (⟨.refused, 0⟩, s.phase)
  | .clr => (⟨.ok, 0⟩, .run)
  | .rsrStatus => (⟨.ok, srValue .status s⟩, s.phase)
  | .rsrPos => (⟨.ok, srValue .pos s⟩, s.phase)
  | .rsrOlen => (⟨.ok, srValue .olen s⟩, s.phase)
  | .rsrRptr => (⟨.ok, srValue .rptr s⟩, s.phase)
  | .rsrErrpos => (⟨.ok, srValue .errpos s⟩, s.phase)
  | .rsrErrchar => (⟨.ok, srValue .errchar s⟩, s.phase)
  | .rsrCap => (⟨.ok, srValue .cap s⟩, s.phase)

/-- The reply does not change with the data of the message. -/
theorem replyBeforeDone_data (s : State) (m : Memory) (n : Nibble) (x y : Byte) (i : Instr) :
    replyBeforeDone { s with obuf := m, nib := n, b0 := x, b1 := y } i = replyBeforeDone s i := by
  cases i <;> rfl

/-- END's new OLEN follows from GCNT and the old OLEN. -/
theorem flushGroup_olen_eq {s t : State} (h : flushGroup s = .ok t) :
    t.olen = if s.gcnt = 0 then s.olen else s.olen + 4 := by
  obtain ⟨hg, rfl⟩ | ⟨hg, -, _, _, -, -, rfl⟩ := flushGroup_cases h
  · rw [if_pos hg]
  · rw [if_neg hg]

/-- Outside DONE every command gives the reply above. -/
theorem exec_replyBeforeDone {i : Instr} {s t : State} (hp : s.phase ≠ .done) (h : exec i s = .next t) :
    t.responses = s.responses ++ [(replyBeforeDone s i).1] ∧ t.phase = (replyBeforeDone s i).2 := by
  cases exec_next h with
  | refused hi ht =>
    obtain ⟨c, rfl, hrun⟩ | ⟨rfl, hrun⟩ | ⟨rfl, -⟩ := hi <;> subst ht
    · simp [replyBeforeDone, hrun]
    · simp [replyBeforeDone, hrun]
    · simp [replyBeforeDone]
  | faulted f c hrun ht hi =>
    obtain ⟨rfl, rfl, hc⟩ | ⟨rfl, rfl, hc, hn⟩ | ⟨rfl, rfl, -, hv⟩ := hi <;> subst ht
    · simp [replyBeforeDone, hrun, hc, MsgFault.code]
    · simp [replyBeforeDone, hrun, hc, hn, MsgFault.code]
    · simp [replyBeforeDone, hrun, hv, MsgFault.code]
  | accepted c n hrun hi hn hc ht =>
    rw [acceptNibble_frame ht, hi]
    simp [replyBeforeDone, hrun, hc, hn]
  | finished u hrun hi hv hu ht =>
    have hresp : u.responses = s.responses := by rw [flushGroup_frame hu]
    subst hi ht
    simp [replyBeforeDone, finishMessage, hrun, hv, hresp, flushGroup_olen_eq hu]
  | popped _ hdone => exact absurd hdone hp
  | cleared hi ht => subst hi ht; exact ⟨rfl, rfl⟩
  | status r hi ht => subst hi ht; cases r <;> exact ⟨rfl, rfl⟩

/-- Settles O39: outside DONE the response and the next phase are a function that reads none of the message's data. -/
theorem noDataLeavesBeforeDone : Obligations.NoDataLeavesBeforeDone := by
  intro i s t t' m n x y hp h h'
  obtain ⟨hresp, hphase⟩ := exec_replyBeforeDone hp h
  obtain ⟨hresp', hphase'⟩ := exec_replyBeforeDone (s := { s with obuf := m, nib := n, b0 := x, b1 := y }) hp h'
  rw [replyBeforeDone_data] at hresp' hphase'
  exact ⟨hresp.trans hresp'.symm, hphase.trans hphase'.symm⟩

end Sys2Proof.Machine

/-! SUPPORT. The opcode map against the decoder: which words select a row, which command they are, and the words that select none
(spec/30_encoding.md R51 to R53). -/

namespace Sys2Proof

/-- Settles O2: the encoding decodes to its command, and no other word does. -/
theorem decodeAndEncodeAgree : Obligations.DecodeAndEncodeAgree :=
  fun _ i => ⟨fun h => (encode_of_decode h).symm, fun h => h ▸ decode_encode i⟩

/-- Settles O1: the ten words, decoded one by one. -/
theorem writtenOutWordsDecode : Obligations.WrittenOutWordsDecode := by
  unfold Obligations.WrittenOutWordsDecode
  decide

/-! ## The rows of the map (R52) -/

/-- PUT's mask keeps the field `op` and drops the operand. -/
theorem and_putMask (w : Command) : w &&& 0xF00#12 = commandWord (opField w) 0x00#8 := by
  calc w &&& 0xF00#12
    _ = commandWord (opField w) (immField w) &&& commandWord (BitVec.allOnes 4) 0x00#8 := by
      rw [commandWord_fields]; rfl
    _ = commandWord (opField w &&& BitVec.allOnes 4) (immField w &&& 0x00#8) := BitVec.and_append
    _ = commandWord (opField w) 0x00#8 := by rw [BitVec.and_allOnes, BitVec.and_zero]

/-- The mask of every other row keeps the whole word. -/
theorem and_fullMask (w : Command) : w &&& 0xFFF#12 = w := BitVec.and_allOnes

/-- A word selects PUT's row when its field `op` is 1. -/
theorem and_putMask_eq_iff {w : Command} : w &&& 0xF00#12 = 0x100#12 ↔ opField w = 0x1#4 := by
  have hpattern : 0x100#12 = commandWord 0x1#4 0x00#8 := rfl
  rw [and_putMask, hpattern]
  exact ⟨fun h => by simpa using congrArg opField h, fun h => by rw [h]⟩

/-- Every row but PUT's is the one word of a command. -/
theorem row_cases : ∀ r ∈ opcodeTable, r = ⟨"PUT", 0x100#12, 0xF00#12⟩ ∨
    r.mask = 0xFFF#12 ∧
      ∃ i ∈ [Instr.endMsg, .pop, .clr, .rsrStatus, .rsrPos, .rsrOlen, .rsrRptr, .rsrErrpos, .rsrErrchar, .rsrCap],
        i.mnemonic = r.mnemonic ∧ encode i = r.pattern := by
  decide

/-- A word that selects a row is the encoding of that row's command. -/
theorem exists_encode_of_selects {w : Command} {r : OpcodeRow} (hr : r ∈ opcodeTable) (h : w &&& r.mask = r.pattern) :
    ∃ i, encode i = w ∧ i.mnemonic = r.mnemonic := by
  obtain rfl | ⟨hmask, i, -, hname, hword⟩ := row_cases r hr
  · refine ⟨.put (immField w), ?_, rfl⟩
    rw [encode, ← and_putMask_eq_iff.1 h, commandWord_fields]
  · exact ⟨i, by rw [hword, ← h, hmask, and_fullMask], hname⟩

/-- A command's word selects the row that carries its name. -/
theorem exists_row_of_encode (i : Instr) : Laws.SelectsItsRow.Statement i := by
  cases i with
  | put c => exact Laws.SelectsItsRow.put c
  | endMsg => exact Laws.SelectsItsRow.endMsg
  | pop => exact Laws.SelectsItsRow.pop
  | clr => exact Laws.SelectsItsRow.clr
  | rsrStatus => exact Laws.SelectsItsRow.rsrStatus
  | rsrPos => exact Laws.SelectsItsRow.rsrPos
  | rsrOlen => exact Laws.SelectsItsRow.rsrOlen
  | rsrRptr => exact Laws.SelectsItsRow.rsrRptr
  | rsrErrpos => exact Laws.SelectsItsRow.rsrErrpos
  | rsrErrchar => exact Laws.SelectsItsRow.rsrErrchar
  | rsrCap => exact Laws.SelectsItsRow.rsrCap

/-- A word that decodes selects its command's row. -/
theorem exists_row_of_decode {w : Command} {i : Instr} (h : decode w = .ok i) :
    ∃ r ∈ opcodeTable, r.mnemonic = i.mnemonic ∧ w &&& r.mask = r.pattern := by
  obtain ⟨r, hr, hname, hsel⟩ := exists_row_of_encode i
  exact ⟨r, hr, hname, encode_of_decode h ▸ eq_of_beq hsel⟩

/-- Two rows whose patterns agree under both masks are one row. -/
theorem row_eq_of_patterns_agree : ∀ r ∈ opcodeTable, ∀ r' ∈ opcodeTable,
    r.pattern &&& r'.mask = r'.pattern &&& r.mask → r = r' := by
  decide

theorem row_eq_of_selects {w : Command} {r r' : OpcodeRow} (hr : r ∈ opcodeTable) (hr' : r' ∈ opcodeTable)
    (h : w &&& r.mask = r.pattern) (h' : w &&& r'.mask = r'.pattern) : r = r' := by
  refine row_eq_of_patterns_agree r hr r' hr' ?_
  rw [← h, ← h', BitVec.and_assoc, BitVec.and_assoc, BitVec.and_comm r.mask]

/-- The operand of a PUT is the low eight bits of its word. -/
theorem encode_put_toNat (c : Byte) : (encode (.put c)).toNat = 256 + c.toNat :=
  Machine.toNat_append_eq_add 0x1#4 c

/-- Settles O3: the patterns tell the rows apart, and a word that selects a row is its command's encoding. -/
theorem decodingFollowsTheOpcodeMap : Obligations.DecodingFollowsTheOpcodeMap := by
  refine ⟨fun w r hr r' hr' => row_eq_of_selects hr hr', fun w r hr h => ?_, fun w i => exists_row_of_decode, by decide⟩
  obtain ⟨i, rfl, hname⟩ := exists_encode_of_selects hr h
  refine ⟨i, decode_encode i, hname, ?_⟩
  rintro c rfl
  rw [encode_put_toNat, Nat.add_mod_left, Nat.mod_eq_of_lt c.isLt]

/-! ## Counting -/

/-- Counting by blocks: when the numbers below `N` with the property `p` are those of the given blocks, each a first number
and a length, none reaching into a later one, their count is the sum of the lengths. -/
theorem countP_range_eq_sum_blocks {N : Nat} {p : Nat → Bool} (blocks : List (Nat × Nat))
    (hsep : blocks.Pairwise fun b c => b.1 + b.2 ≤ c.1)
    (h : ∀ n, (∃ b ∈ blocks, b.1 ≤ n ∧ n < b.1 + b.2) ↔ n < N ∧ p n = true) :
    (List.range N).countP p = (blocks.map Prod.snd).sum := by
  have hnodup : (blocks.flatMap fun b => List.range' b.1 b.2).Nodup := by
    refine List.nodup_flatMap.2 ⟨fun b _ => List.nodup_range', hsep.imp fun hbc n hb hc => ?_⟩
    rw [List.mem_range'_1] at hb hc
    omega
  have hperm : ((List.range N).filter p).Perm (blocks.flatMap fun b => List.range' b.1 b.2) := by
    refine (List.perm_ext_iff_of_nodup (List.nodup_range.filter p) hnodup).2 fun n => ?_
    rw [List.mem_filter, List.mem_range, ← h, List.mem_flatMap]
    simp only [List.mem_range'_1]
  rw [List.countP_eq_length_filter, hperm.length_eq, List.length_flatMap]
  simp only [List.length_range']

/-! ## The illegal words (R53) -/

theorem opField_toNat (w : Command) : (opField w).toNat = w.toNat / 256 := by
  have hw : w.toNat < 4096 := w.isLt
  simp [opField, Nat.shiftRight_eq_div_pow]
  omega

/-- The legal words as numbers: 256 for PUT, and ten single words. -/
theorem selects_none_iff (w : Command) : (∀ r ∈ opcodeTable, w &&& r.mask ≠ r.pattern) ↔
    ¬(w.toNat / 256 = 1 ∨ w.toNat = 512 ∨ w.toNat = 768 ∨ w.toNat = 1024 ∨ 1280 ≤ w.toNat ∧ w.toNat ≤ 1286) := by
  simp only [opcodeTable, List.forall_mem_cons, and_fullMask, ne_eq, and_putMask_eq_iff]
  simp only [← BitVec.toNat_inj, opField_toNat, BitVec.toNat_ofNat, List.not_mem_nil, false_implies, implies_true,
    and_true]
  omega

theorem legalWord_eq_false_iff {w : Command} : legalWord w = false ↔ ∀ r ∈ opcodeTable, w &&& r.mask ≠ r.pattern := by
  simp [legalWord, OpcodeRow.selects]

theorem legalWord_ofNat_iff {n : Nat} (h : n < 4096) : legalWord (BitVec.ofNat 12 n) = true ↔
    n / 256 = 1 ∨ n = 512 ∨ n = 768 ∨ n = 1024 ∨ 1280 ≤ n ∧ n ≤ 1286 := by
  rw [← Bool.not_eq_false, legalWord_eq_false_iff, selects_none_iff, not_not, BitVec.toNat_ofNat, Nat.mod_eq_of_lt h]

theorem count_unassignedLow : (List.range 4096).countP (fun n => decide (n / 256 = 0)) = 256 :=
  countP_range_eq_sum_blocks [(0, 256)] (by decide) fun n => by simp; omega

theorem count_nonzeroImmediate :
    (List.range 4096).countP (fun n => decide (2 ≤ n / 256 ∧ n / 256 ≤ 4 ∧ n % 256 ≠ 0)) = 765 :=
  countP_range_eq_sum_blocks [(513, 255), (769, 255), (1025, 255)] (by decide) fun n => by simp; omega

theorem count_noSuchRegister : (List.range 4096).countP (fun n => decide (n / 256 = 5 ∧ 7 ≤ n % 256)) = 249 :=
  countP_range_eq_sum_blocks [(1287, 249)] (by decide) fun n => by simp; omega

theorem count_unassignedHigh : (List.range 4096).countP (fun n => decide (6 ≤ n / 256)) = 2560 :=
  countP_range_eq_sum_blocks [(1536, 2560)] (by decide) fun n => by simp; omega

/-- PUT's words, the three commands without operand, the seven RSR. -/
theorem count_legalWord : (List.range 4096).countP (fun n => legalWord (BitVec.ofNat 12 n)) = 266 :=
  countP_range_eq_sum_blocks [(256, 256), (512, 1), (768, 1), (1024, 1), (1280, 7)] (by decide) fun n => by
    rw [and_congr_right fun h => legalWord_ofNat_iff h]
    simp
    omega

theorem count_illegalWord : (List.range 4096).countP (fun n => !legalWord (BitVec.ofNat 12 n)) = 3830 :=
  countP_range_eq_sum_blocks [(0, 256), (513, 255), (769, 255), (1025, 255), (1287, 2809)] (by decide) fun n => by
    rw [and_congr_right fun h => by rw [Bool.not_eq_true', ← Bool.not_eq_true, legalWord_ofNat_iff h]]
    simp
    omega

/-- A word that selects no row is rejected. -/
theorem decode_error_of_selects_none {w : Command} (h : ∀ r ∈ opcodeTable, w &&& r.mask ≠ r.pattern) :
    ∃ e, decode w = .error e := by
  cases hd : decode w with
  | error e => exact ⟨e, rfl⟩
  | ok i =>
    obtain ⟨r, hr, -, hsel⟩ := exists_row_of_decode hd
    exact absurd hsel (h r hr)

end Sys2Proof

namespace Sys2Proof.Machine

/-- A word the decoder rejects is answered ILLEGAL and changes no register (R115). -/
theorem step_of_decode_error {s : State} {w : Command} {rest : List Input} {e : DecodeError}
    (hin : s.inputs = .command w :: rest) (hdec : decode w = .error e) :
    step s = .next (illegal { s with inputs := rest }) := by
  simp only [step, hin, hdec]

theorem step_of_selects_none {s : State} {w : Command} {rest : List Input} (hin : s.inputs = .command w :: rest)
    (h : ∀ r ∈ opcodeTable, w &&& r.mask ≠ r.pattern) : step s = .next (illegal { s with inputs := rest }) := by
  obtain ⟨e, hdec⟩ := decode_error_of_selects_none h
  exact step_of_decode_error hin hdec

/-- Settles O4: the legal words as numbers give the groups and their sizes; such a word is one the decoder rejects. -/
theorem illegalWordsChangeNothing : Obligations.IllegalWordsChangeNothing := by
  refine ⟨fun w => ?_, count_unassignedLow, count_nonzeroImmediate, count_noSuchRegister, count_unassignedHigh,
    count_legalWord, count_illegalWord, fun s w rest => step_of_selects_none⟩
  rw [selects_none_iff]
  omega

end Sys2Proof.Machine

/-! SUPPORT. What every command answers: one response, of the table of spec/30_encoding.md R55, from every state that meets
spec/10_state.md R31; and what that makes of every run from reset. -/

namespace Sys2Proof.Machine

/-! ## The response to a command (R55) -/

/-- Settles O11: each effect of a command gives its response, each illegal word is rejected. -/
theorem responsesFollowTheTable : Obligations.ResponsesFollowTheTable := by
  refine ⟨fun i s t h => ?_, fun s w rest hin hw => step_of_selects_none hin (legalWord_eq_false_iff.1 hw),
    rfl, rfl, rfl, rfl⟩
  cases exec_next h with
  | refused hi ht =>
    refine ⟨⟨.refused, 0⟩, ht ▸ rfl, fun _ => ht, ?_⟩
    obtain ⟨c, rfl, -⟩ | ⟨rfl, -⟩ | ⟨rfl, -⟩ := hi
    · exact .inr (.inl rfl)
    · exact .inr (.inl rfl)
    · exact .inr rfl
  | faulted f c _ ht hi =>
    subst ht
    refine ⟨⟨.fault, zext32 f.code⟩, rfl, nofun, ?_⟩
    obtain ⟨rfl, rfl, -⟩ | ⟨rfl, rfl, -, -⟩ | ⟨rfl, rfl, -, -⟩ := hi
    · exact .inr (.inr (.inr ⟨rfl, rfl, rfl⟩))
    · exact .inr (.inr (.inl ⟨rfl, rfl, rfl⟩))
    · exact .inr (.inr ⟨rfl, rfl, rfl⟩)
  | accepted c n _ hi _ _ ht =>
    subst hi
    exact ⟨⟨.ok, 0⟩, by rw [acceptNibble_frame ht], nofun, .inl rfl⟩
  | finished u _ hi _ hu ht =>
    subst hi ht
    exact ⟨⟨.ok, u.olen⟩, by rw [finishMessage, flushGroup_frame hu]; rfl, nofun, .inl rfl⟩
  | popped v _ hi _ hv ht =>
    subst hi ht
    exact ⟨⟨.ok, zext32 v⟩, rfl, nofun, .inl ⟨v, hv, rfl⟩⟩
  | cleared hi ht =>
    subst hi ht
    exact ⟨⟨.ok, 0⟩, rfl, nofun, rfl⟩
  | status r hi ht =>
    subst hi ht
    refine ⟨⟨.ok, srValue r s⟩, rfl, nofun, ?_⟩
    cases r <;> rfl

/-! ## Every command is answered (R50, R134) -/

/-- A command touches neither the parameter nor the events still pending. -/
theorem exec_inputs_params {i : Instr} {s t : State} (h : exec i s = .next t) :
    t.inputs = s.inputs ∧ t.params = s.params := by
  cases exec_next h with
  | refused _ ht => exact ht ▸ ⟨rfl, rfl⟩
  | faulted _ _ _ ht _ => exact ht ▸ ⟨rfl, rfl⟩
  | accepted _ _ _ _ _ _ ht => rw [acceptNibble_frame ht]; exact ⟨rfl, rfl⟩
  | finished u _ _ _ hu ht => rw [ht, finishMessage, flushGroup_frame hu]; exact ⟨rfl, rfl⟩
  | popped _ _ _ _ _ ht => exact ht ▸ ⟨rfl, rfl⟩
  | cleared _ ht => exact ht ▸ ⟨rfl, rfl⟩
  | status _ _ ht => exact ht ▸ ⟨rfl, rfl⟩

/-- The three values of GCNT. -/
theorem gcnt_cases (g : Fin 3) : g = 0 ∨ g = 1 ∨ g = 2 := by
  revert g
  decide

theorem exists_pushByte {s : State} (b : Byte) (hroom : s.gcnt ≠ 0 → s.olen.toNat + 4 ≤ s.params.maxOut) :
    ∃ t, pushByte b s = .ok t := by
  obtain hg | hg | hg := gcnt_cases s.gcnt
  · exact ⟨_, pushByte_of_none hg⟩
  · exact ⟨_, pushByte_of_one hg⟩
  · exact ⟨_, pushByte_of_two hg (hroom (by rw [hg]; decide))⟩

theorem exists_flushGroup {s : State} (hroom : s.gcnt ≠ 0 → s.olen.toNat + 4 ≤ s.params.maxOut) :
    ∃ t, flushGroup s = .ok t := by
  obtain hg | hg | hg := gcnt_cases s.gcnt
  · exact ⟨s, flushGroup_of_none hg⟩
  · exact ⟨_, (flushGroup_of_one hg).trans (append4_of_room _ (hroom (by rw [hg]; decide)))⟩
  · exact ⟨_, (flushGroup_of_two hg).trans (append4_of_room _ (hroom (by rw [hg]; decide)))⟩

theorem exists_acceptNibble {s : State} (n : Nibble) (hroom : s.gcnt ≠ 0 → s.olen.toNat + 4 ≤ s.params.maxOut) :
    ∃ t, acceptNibble n s = .ok t := by
  unfold acceptNibble
  split
  · obtain ⟨u, hu⟩ := exists_pushByte (s := { s with nib := 0, nibv := false }) (pair s.nib n) hroom
    exact ⟨_, by rw [hu]⟩
  · exact ⟨_, rfl⟩

theorem exists_execPut {s : State} (hs : MachineInv s) (c : Byte) : ∃ t, execPut c s = .next t := by
  unfold execPut
  split
  · next hp =>
    split
    · exact ⟨_, rfl⟩
    · split
      · exact ⟨_, rfl⟩
      · next n _ =>
        obtain ⟨u, hu⟩ := exists_acceptNibble n ((phaseInv_of_run hp).1 hs.phase).room
        exact ⟨u, by rw [hu]⟩
  · exact ⟨_, rfl⟩
  · exact ⟨_, rfl⟩

theorem exists_execEnd {s : State} (hs : MachineInv s) : ∃ t, execEnd s = .next t := by
  unfold execEnd
  split
  · next hp =>
    split
    · exact ⟨_, rfl⟩
    · obtain ⟨u, hu⟩ := exists_flushGroup ((phaseInv_of_run hp).1 hs.phase).room
      exact ⟨finishMessage u, by rw [hu]⟩
  · exact ⟨_, rfl⟩
  · exact ⟨_, rfl⟩

/-- Below OLEN there is a cell (R21). -/
theorem DataInv.exists_read {s : State} (hs : DataInv s) {k : Nat} (hk : k < s.olen.toNat) :
    ∃ v, Memory.read s.obuf k = some v := by
  have hlen : (s.obuf.map Prod.snd).length = s.olen.toNat := by
    rw [List.length_map, ← List.length_map Prod.fst, hs.cells, List.length_range]
  exact ⟨_, (Memory.read_eq_sequence hs.cells k).trans (List.getElem?_eq_getElem (hlen ▸ hk))⟩

theorem exists_execPop {s : State} (hs : MachineInv s) : ∃ t, execPop s = .next t := by
  unfold execPop
  split
  · next hp =>
    split
    · exact ⟨_, rfl⟩
    · next hr =>
      have hle : s.rptr.toNat ≤ s.olen.toNat := ((phaseInv_of_done hp).1 hs.phase).rptr_le
      obtain ⟨v, hv⟩ := hs.data.exists_read (lt_of_le_of_ne hle (mt BitVec.eq_of_toNat_eq hr))
      exact ⟨_, by rw [hv]⟩
  · exact ⟨_, rfl⟩
  · exact ⟨_, rfl⟩

/-- In every state that meets R31 every command completes. -/
theorem exists_exec {s : State} (hs : MachineInv s) (i : Instr) : ∃ t, exec i s = .next t := by
  cases i with
  | put c => exact exists_execPut hs c
  | endMsg => exact exists_execEnd hs
  | pop => exact exists_execPop hs
  | _ => exact ⟨_, rfl⟩

/-- Settles O10: an illegal word is answered at once; a command completes, and gives the response of R55. -/
theorem everyCommandGetsOneResponse : Obligations.EveryCommandGetsOneResponse := by
  intro s w rest hs hin
  cases hdec : decode w with
  | error e => exact ⟨_, ⟨.illegal, 0⟩, step_of_decode_error hin hdec, rfl, rfl, rfl⟩
  | ok i =>
    obtain ⟨t, ht⟩ := exists_exec ((take_sameRegisters s rest).machineInv hs) i
    obtain ⟨r, hr, -, -⟩ := responsesFollowTheTable.1 i _ t ht
    obtain ⟨hinputs, hparams⟩ := exec_inputs_params ht
    exact ⟨t, r, (stepRunsTheDecodedCommand s w rest i hin hdec).trans ht, hr, hinputs, hparams⟩

/-! ## Every run keeps what every step keeps -/

/-- The first step of a run that goes on to its end. -/
theorem exists_step_of_runSteps {n : Nat} {s t : State} (h : runSteps (n + 1) s = .next t) :
    ∃ u, step s = .next u ∧ runSteps n u = .next t := by
  cases hs : step s with
  | next u => exact ⟨u, rfl, runSteps_succ hs ▸ h⟩
  | fault f =>
    have hcore : Sys2Proof.core.step s = .fault f := hs
    simp [runSteps, Host.Core.run, hcore] at h
  | refused r =>
    have hcore : Sys2Proof.core.step s = .refused r := hs
    simp [runSteps, Host.Core.run, hcore] at h

/-- Every run keeps the invariants of R31. -/
theorem runSteps_machineInv {n : Nat} {s t : State} (hs : MachineInv s) (h : runSteps n s = .next t) : MachineInv t := by
  induction n generalizing s with
  | zero => exact next_inj h ▸ hs
  | succ n ih =>
    obtain ⟨u, hstep, hrun⟩ := exists_step_of_runSteps h
    exact ih (step_machineInv hs hstep) hrun

/-! ## Only characters of the alphabet (R63) -/

theorem padding_not_mem_alphabet : 0x3D#8 ∉ base64Alphabet := by decide

theorem base64Alphabet_nodup : base64Alphabet.Nodup := by decide

theorem mem_alphabet_of_mem_encodeGroups {bytes : List Byte} {c : Byte} (h : c ∈ encodeGroups bytes) :
    c ∈ base64Alphabet := by
  induction bytes using encodeGroups.induct with
  | case1 x y z rest ih =>
    obtain h | h := List.mem_append.1 h
    · exact mem_alphabet_of_mem_encGroup h
    · exact ih h
  | _ => exact absurd h List.not_mem_nil

/-- A text that `convert` gives is the Base64 text of some bytes. -/
theorem exists_b64Encode_of_convert {p : Params} {text out : List Byte} (h : convert p text = .ok out) :
    ∃ bytes, out = b64Encode bytes := by
  unfold convert at h
  split at h
  · cases h
  · split at h
    · cases h
    · split at h
      · cases h
      · next bytes _ => exact ⟨bytes, (Except.ok.inj h).symm⟩

/-- Settles O46: R31 holds after every run from reset; `convert` encodes group by group. -/
theorem onlyAlphabetCharactersAppear : Obligations.OnlyAlphabetCharactersAppear := by
  refine ⟨fun p es n t h x hx => ?_, ⟨rfl, base64Alphabet_nodup⟩, fun p text out h c hc => ?_⟩
  · have hstart : MachineInv { State.resetOf p with inputs := es } :=
      (take_sameRegisters _ es).machineInv (resetOf_machineInv p)
    have hmem : x.2 ∈ base64Alphabet := (runSteps_machineInv hstart h).data.alphabet x hx
    exact ⟨hmem, fun he => padding_not_mem_alphabet (he ▸ hmem)⟩
  · obtain ⟨bytes, rfl⟩ := exists_b64Encode_of_convert h
    exact mem_alphabet_of_mem_encodeGroups hc

end Sys2Proof.Machine

/-! SUPPORT. The two tables of spec/30_encoding.md, R59 and R61, against their arithmetic forms, and the expansions of R57. -/

namespace Sys2Proof.Machine

/-! ## Hex digits (R59, R60, R71) -/

theorem nib_of_decimal {c : Byte} (h : 0x30 ≤ c.toNat) (h' : c.toNat ≤ 0x39) :
    (nib c).map BitVec.toNat = some (c.toNat - 0x30) := by
  rw [nib, if_pos ⟨h, h'⟩, Option.map_some, BitVec.toNat_setWidth, BitVec.toNat_sub_of_le h]
  simp
  omega

theorem nib_of_letter {c : Byte} (h : 0x61 ≤ c.toNat) (h' : c.toNat ≤ 0x66) :
    (nib c).map BitVec.toNat = some (c.toNat - 0x61 + 10) := by
  have hdecimal : ¬(0x30#8 ≤ c ∧ c ≤ 0x39#8) := fun hd => absurd (Nat.le_trans h hd.2) (by decide)
  rw [nib, if_neg hdecimal, if_pos ⟨h, h'⟩, Option.map_some, BitVec.toNat_setWidth, BitVec.toNat_add,
    BitVec.toNat_sub_of_le h]
  simp
  omega

theorem nib_eq_none_iff (c : Byte) :
    nib c = none ↔ ¬((0x30 ≤ c.toNat ∧ c.toNat ≤ 0x39) ∨ (0x61 ≤ c.toNat ∧ c.toNat ≤ 0x66)) := by
  unfold nib
  split_ifs with hdecimal hletter
  · exact iff_of_false nofun (not_not_intro (.inl hdecimal))
  · exact iff_of_false nofun (not_not_intro (.inr hletter))
  · exact iff_of_true rfl (not_or_intro hdecimal hletter)

/-- The lookup finds rows of the table only: all 256 codes are looked up. -/
theorem mem_hexDigitTable_of_nib : ∀ c : Byte, ∀ n ∈ nib c, (c, n) ∈ hexDigitTable := by decide +kernel

/-- The lookup finds every row of the table. -/
theorem map_nib_hexDigitTable : (hexDigitTable.map fun x => nib x.1) = hexDigitTable.map fun x => some x.2 := by decide

theorem count_digits : (List.range 256).countP (fun c => (nib (BitVec.ofNat 8 c)).isSome) = 16 :=
  countP_range_eq_sum_blocks [(0x30, 10), (0x61, 6)] (by decide) fun n => by
    rw [Option.isSome_iff_ne_none, ne_eq, nib_eq_none_iff, not_not, BitVec.toNat_ofNat]
    simp
    omega

/-- Settles O14: the table row by row, the two ranges by arithmetic. -/
theorem nibbleLookupIsTheDigitTable : Obligations.NibbleLookupIsTheDigitTable :=
  ⟨fun c n => ⟨mem_hexDigitTable_of_nib c n, List.map_inj_left.1 map_nib_hexDigitTable (c, n)⟩, nib_eq_none_iff,
    fun _ => nib_of_decimal, fun _ => nib_of_letter, count_digits⟩

/-! ## The alphabet (R61, R62) -/

theorem getElem?_base64Alphabet : ∀ v : Sextet, base64Alphabet[v.toNat]? = some (b64char v) := by decide

theorem b64char_injective : Function.Injective b64char := by
  intro v v' h
  have hv : v.toNat < base64Alphabet.length := v.isLt
  refine BitVec.eq_of_toNat_eq ((List.getElem?_inj hv base64Alphabet_nodup).1 ?_)
  rw [getElem?_base64Alphabet, getElem?_base64Alphabet, h]

/-- Settles O45: the arithmetic form is the table for each of the 64 sextets, and the table has no character twice. -/
theorem alphabetFormsAgree : Obligations.AlphabetFormsAgree :=
  ⟨getElem?_base64Alphabet, by decide, fun _ _ h => b64char_injective h, fun _ _ _ => rfl⟩

/-! ## Pseudo-commands (R57) -/

/-- Settles O5: a text of character codes is well formed, and a well-formed line expands. -/
theorem pseudoCommandsExpand : Obligations.PseudoCommandsExpand := by
  intro text k htext
  have hwf : text.all isCharCode = true := by simpa [isCharCode] using htext
  simp [lineCommands, Line.wf, hwf, expandPuts, expandMsg]

end Sys2Proof.Machine

/-! SUPPORT. Hex decoding (spec/40_hex_decode.md): the pair of two nibbles, PUT of a digit at each place of its group, and
hex_decode of a whole message. -/

namespace Sys2Proof.Machine

/-! ## Pairs (R73) -/

theorem pair_toNat (h l : Nibble) : (pair h l).toNat = 16 * h.toNat + l.toNat := by
  rw [pair, toNat_append_eq_add]
  omega

theorem pair_eq_ofNat (h l : Nibble) : pair h l = BitVec.ofNat 8 (16 * h.toNat + l.toNat) := by
  rw [← pair_toNat, BitVec.ofNat_toNat, BitVec.setWidth_eq]

/-- A byte is the pair of its two halves. -/
@[simp] theorem pair_halves (b : Byte) : pair (b.extractLsb' 4 4) (b.extractLsb' 0 4) = b :=
  (BitVec.extractLsb'_append_extractLsb'_eq_extractLsb' rfl).trans BitVec.extractLsb'_eq_self

theorem pair_injective {h h' l l' : Nibble} (heq : pair h l = pair h' l') : h = h' ∧ l = l' := by
  have hvalue := congrArg BitVec.toNat heq
  rw [pair_toNat, pair_toNat] at hvalue
  constructor <;> bv_omega

/-- Settles O43: a byte is the pair of its halves, and no other pair has its value. -/
theorem everyByteIsOnePair : Obligations.EveryByteIsOnePair :=
  ⟨pair_toNat, fun b => ⟨_, _, pair_halves b, fun _ _ hb => pair_injective (hb.trans (pair_halves b).symm)⟩⟩

/-! ## PUT of a digit (R74) -/

theorem nib_of_mem_hexDigitTable {c : Byte} {n : Nibble} (h : (c, n) ∈ hexDigitTable) : nib c = some n :=
  (nibbleLookupIsTheDigitTable.1 c n).2 h

/-- In RUN below the capacity, PUT of a digit is `acceptNibble` of its nibble. -/
theorem exec_put_of_digit {s t : State} {c : Byte} {n : Nibble} (hp : s.phase = .run)
    (hc : s.pos.toNat ≠ s.params.maxChars) (hn : nib c = some n) (h : acceptNibble n s = .ok t) :
    exec (.put c) s = .next t := by
  change execPut c s = .next t
  simp only [execPut, hp, if_neg hc, hn, h]

theorem acceptNibble_of_first {s : State} (n : Nibble) (hv : s.nibv = false) :
    acceptNibble n s = .ok (respond .ok 0 { s with nib := n, nibv := true, pos := s.pos + 1 }) := by
  simp [acceptNibble, hv]

theorem acceptNibble_of_second {s u : State} {n : Nibble} (hv : s.nibv = true)
    (hu : pushByte (pair s.nib n) { s with nib := 0, nibv := false } = .ok u) :
    acceptNibble n s = .ok (respond .ok 0 { u with pos := u.pos + 1 }) := by
  simp only [acceptNibble, hv, if_true, hu]

/-- Settles O15: with no nibble waiting, the accepted digit is the first of its pair. -/
theorem putFirstDigitWaits : Obligations.PutFirstDigitWaits := by
  intro s c n hp hc hmem hv
  exact exec_put_of_digit hp hc (nib_of_mem_hexDigitTable hmem) (acceptNibble_of_first n hv)

/-- Settles O16: the accepted digit completes its byte, which `pushByte` keeps in B0 or B1. -/
theorem putSecondDigitKeepsTheByte : Obligations.PutSecondDigitKeepsTheByte := by
  intro s c n hp hc hmem hv
  have hn := nib_of_mem_hexDigitTable hmem
  rw [← pair_eq_ofNat]
  exact ⟨fun hg => exec_put_of_digit hp hc hn (acceptNibble_of_second hv (pushByte_of_none hg)),
    fun hg => exec_put_of_digit hp hc hn (acceptNibble_of_second hv (pushByte_of_one hg))⟩

/-- Settles O17: `pushByte` completes the group, whose characters are written from OLEN on. -/
theorem putThirdByteAppendsItsGroup : Obligations.PutThirdByteAppendsItsGroup := by
  intro s c n hp hc hmem hv hg hroom
  have hn := nib_of_mem_hexDigitTable hmem
  rw [← pair_eq_ofNat]
  exact ⟨_, exec_put_of_digit hp hc hn (acceptNibble_of_second hv (pushByte_of_two hg hroom)),
    fun k hk => Memory.read_writeFrom_inside _ _ _ hk, fun a ha => Memory.read_writeFrom_outside _ _ _ ha⟩

/-! ## The first character that is no digit (R77) -/

/-- The search passes over digits. -/
theorem firstNonDigit_append {good : List Byte} (i : Nat) (rest : List Byte) (h : ∀ d ∈ good, nib d ≠ none) :
    firstNonDigit i (good ++ rest) = firstNonDigit (i + good.length) rest := by
  induction good generalizing i with
  | nil => rfl
  | cons d good ih =>
    obtain ⟨hd, hgood⟩ := List.forall_mem_cons.1 h
    obtain ⟨n, hn⟩ := Option.ne_none_iff_exists'.1 hd
    have hindex : i + 1 + good.length = i + (d :: good).length := by rw [List.length_cons]; omega
    simp only [List.cons_append, firstNonDigit, hn, ih (i + 1) hgood, hindex]

theorem firstNonDigit_eq_none_iff {i : Nat} {text : List Byte} :
    firstNonDigit i text = none ↔ ∀ d ∈ text, nib d ≠ none := by
  induction text generalizing i with
  | nil => simp [firstNonDigit]
  | cons c text ih =>
    cases hc : nib c with
    | none => simp [firstNonDigit, hc]
    | some n => simp [firstNonDigit, hc, ih]

/-! ## Joining nibbles (R77) -/

theorem length_pairUp (nibbles : List Nibble) : (pairUp nibbles).length = nibbles.length / 2 := by
  induction nibbles using pairUp.induct with
  | case1 h l rest ih =>
    rw [pairUp, List.length_cons, ih, List.length_cons, List.length_cons]
    omega
  | case2 => simp [pairUp]
  | case3 => rfl

/-- Byte `k` is the pair of the nibbles `2k` and `2k + 1`. -/
theorem getElem?_pairUp {nibbles : List Nibble} {k : Nat} {h l : Nibble} (hh : nibbles[2 * k]? = some h)
    (hl : nibbles[2 * k + 1]? = some l) : (pairUp nibbles)[k]? = some (pair h l) := by
  induction nibbles using pairUp.induct generalizing k with
  | case1 a b rest ih =>
    cases k with
    | zero =>
      obtain rfl : a = h := Option.some.inj hh
      obtain rfl : b = l := Option.some.inj hl
      rfl
    | succ k => exact ih hh hl
  | case2 => simp at hl
  | case3 => simp at hl

/-- When all characters are digits, each has its nibble. -/
theorem map_some_filterMap_nib {text : List Byte} (h : ∀ d ∈ text, nib d ≠ none) :
    (text.filterMap nib).map some = text.map nib := by
  rw [List.map_filterMap_some_eq_filter_map_isSome, List.filter_eq_self]
  simpa [Option.isSome_iff_ne_none] using h

theorem length_filterMap_nib {text : List Byte} (h : ∀ d ∈ text, nib d ≠ none) :
    (text.filterMap nib).length = text.length := by
  simpa using congrArg List.length (map_some_filterMap_nib h)

/-- The nibble at an index is that of the character there. -/
theorem exists_digit_of_getElem? {text : List Byte} {j : Nat} {n : Nibble} (h : ∀ d ∈ text, nib d ≠ none)
    (hn : (text.filterMap nib)[j]? = some n) : ∃ c, text[j]? = some c ∧ nib c = some n := by
  have hmap : (text.map nib)[j]? = some (some n) := by rw [← map_some_filterMap_nib h, List.getElem?_map, hn]; rfl
  rwa [List.getElem?_map, Option.map_eq_some_iff] at hmap

/-! ## `hex_decode` (R77, R78) -/

theorem hexDecode_of_nonDigit {good : List Byte} {c : Byte} (rest : List Byte) (h : ∀ d ∈ good, nib d ≠ none)
    (hc : nib c = none) : hexDecode (good ++ c :: rest) = .error ⟨.invalidHexDigit, good.length, c⟩ := by
  simp [hexDecode, firstNonDigit_append 0 _ h, firstNonDigit, hc]

theorem hexDecode_of_odd {text : List Byte} (h : ∀ d ∈ text, nib d ≠ none) (hodd : text.length % 2 = 1) :
    hexDecode text = .error ⟨.invalidHexLength, text.length, 0x00#8⟩ := by
  simp [hexDecode, firstNonDigit_eq_none_iff.2 h, hodd]

theorem hexDecode_of_even {text : List Byte} (h : ∀ d ∈ text, nib d ≠ none) (heven : text.length % 2 = 0) :
    hexDecode text = .ok (pairUp (text.filterMap nib)) := by
  simp [hexDecode, firstNonDigit_eq_none_iff.2 h, heven]

/-- A message that decodes is an even number of digits. -/
theorem digits_of_hexDecode_ok {text bytes : List Byte} (h : hexDecode text = .ok bytes) :
    (∀ d ∈ text, nib d ≠ none) ∧ text.length % 2 = 0 ∧ bytes = pairUp (text.filterMap nib) := by
  unfold hexDecode at h
  split at h
  · cases h
  · next hnone =>
    split at h
    · cases h
    · next hodd => exact ⟨firstNonDigit_eq_none_iff.1 hnone, by omega, (Except.ok.inj h).symm⟩

theorem length_pairUp_digits {text : List Byte} (h : ∀ d ∈ text, nib d ≠ none) :
    (pairUp (text.filterMap nib)).length = text.length / 2 := by
  rw [length_pairUp, length_filterMap_nib h]

/-- Byte `k` of a message of digits is the pair of the characters `2k` and `2k + 1`. -/
theorem exists_characters_of_byte {text : List Byte} (h : ∀ d ∈ text, nib d ≠ none) {k : Nat}
    (hk : k < text.length / 2) : ∃ a b c d, text[2 * k]? = some c ∧ text[2 * k + 1]? = some d ∧ nib c = some a ∧
      nib d = some b ∧ (pairUp (text.filterMap nib))[k]? = some (pair a b) := by
  have hlow : 2 * k + 1 < (text.filterMap nib).length := by rw [length_filterMap_nib h]; omega
  have ha := List.getElem?_eq_getElem (Nat.lt_of_succ_lt hlow)
  have hb := List.getElem?_eq_getElem hlow
  obtain ⟨c, hc, hnc⟩ := exists_digit_of_getElem? h ha
  obtain ⟨d, hd, hnd⟩ := exists_digit_of_getElem? h hb
  exact ⟨_, _, c, d, hc, hd, hnc, hnd, getElem?_pairUp ha hb⟩

/-- Settles O47: a first bad character, an odd number of digits, or an even number, which are paired up. -/
theorem hexDecodeReportsTheFirstDefect : Obligations.HexDecodeReportsTheFirstDefect := by
  refine ⟨fun good rest c => hexDecode_of_nonDigit rest, fun text h => ⟨hexDecode_of_odd h, fun heven => ?_⟩, rfl⟩
  have hlen := length_pairUp_digits h
  exact ⟨_, hexDecode_of_even h heven, hlen, fun k hk => exists_characters_of_byte h (hlen ▸ hk)⟩

/-! ## `hex_encode` (R79) -/

/-- The digit of a nibble has that nibble. -/
@[simp] theorem nib_hexDigit : ∀ n : Nibble, nib (hexDigit n) = some n := by decide

theorem length_hexEncode (bytes : List Byte) : (hexEncode bytes).length = 2 * bytes.length := by
  induction bytes with
  | nil => rfl
  | cons b bytes ih => simp [hexEncode, ih]; omega

theorem nib_ne_none_of_mem_hexEncode (bytes : List Byte) : ∀ d ∈ hexEncode bytes, nib d ≠ none := by
  induction bytes with
  | nil => simp [hexEncode]
  | cons b bytes ih => simpa [hexEncode] using ih

/-- The nibbles of a byte's two digits pair up to the byte. -/
theorem pairUp_filterMap_hexEncode (bytes : List Byte) : pairUp ((hexEncode bytes).filterMap nib) = bytes := by
  induction bytes with
  | nil => rfl
  | cons b bytes ih => simp [hexEncode, pairUp, ih]

/-- Settles O49: the encoding is an even number of digits, whose pairs are the bytes. -/
theorem hexRoundTrip : Obligations.HexRoundTrip := by
  intro bytes
  have heven : (hexEncode bytes).length % 2 = 0 := by rw [length_hexEncode, Nat.mul_mod_right]
  rw [hexDecode_of_even (nib_ne_none_of_mem_hexEncode bytes) heven, pairUp_filterMap_hexEncode]

/-- Settles O48: each byte takes two of the digits, and the encoding of a byte sequence is a text for it. -/
theorem hexDecodeHalvesTheLength : Obligations.HexDecodeHalvesTheLength := by
  refine ⟨fun text bytes h => ?_, fun bytes => ⟨hexEncode bytes, hexRoundTrip bytes⟩⟩
  obtain ⟨hdigits, heven, rfl⟩ := digits_of_hexDecode_ok h
  rw [length_pairUp_digits hdigits]
  omega

end Sys2Proof.Machine

/-! SUPPORT. Base64 encoding (spec/41_base64_encode.md): the sextets of a group, the padding of a short final group, the
length of a text, and END on a whole and on a short final group. -/

namespace Sys2Proof.Machine

/-! ## The 24-bit word and its sextets (R81, R82) -/

theorem word24_toNat (b0 b1 b2 : Byte) :
    (word24 b0 b1 b2).toNat = 65536 * b0.toNat + 256 * b1.toNat + b2.toNat := by
  rw [word24, toNat_append_eq_add, toNat_append_eq_add]
  omega

/-- A bit field as a number: shifted down by division, cut off by the remainder. -/
theorem extractLsb'_toNat_eq_div_mod {n : Nat} (start len : Nat) (x : BitVec n) :
    (x.extractLsb' start len).toNat = x.toNat / 2 ^ start % 2 ^ len := by
  rw [BitVec.extractLsb'_toNat, Nat.shiftRight_eq_div_pow]

/-- The sextets as digits of the word to base 64. -/
theorem sextets_toNat (w : Word24) :
    (sextets w).c0.toNat = w.toNat / 2 ^ 18 % 64 ∧ (sextets w).c1.toNat = w.toNat / 2 ^ 12 % 64 ∧
    (sextets w).c2.toNat = w.toNat / 2 ^ 6 % 64 ∧ (sextets w).c3.toNat = w.toNat % 64 := by
  have hc3 : (sextets w).c3.toNat = w.toNat / 2 ^ 0 % 64 := extractLsb'_toNat_eq_div_mod 0 6 w
  rw [pow_zero, Nat.div_one] at hc3
  exact ⟨extractLsb'_toNat_eq_div_mod 18 6 w, extractLsb'_toNat_eq_div_mod 12 6 w,
    extractLsb'_toNat_eq_div_mod 6 6 w, hc3⟩

/-- The sextets in terms of the bytes (R82). -/
theorem sextets_word24_toNat (b0 b1 b2 : Byte) :
    (sextets (word24 b0 b1 b2)).c0.toNat = b0.toNat / 4 ∧
    (sextets (word24 b0 b1 b2)).c1.toNat = b0.toNat % 4 * 16 + b1.toNat / 16 ∧
    (sextets (word24 b0 b1 b2)).c2.toNat = b1.toNat % 16 * 4 + b2.toNat / 64 ∧
    (sextets (word24 b0 b1 b2)).c3.toNat = b2.toNat % 64 := by
  have h0 := b0.isLt
  have h1 := b1.isLt
  have h2 := b2.isLt
  obtain ⟨hc0, hc1, hc2, hc3⟩ := sextets_toNat (word24 b0 b1 b2)
  rw [word24_toNat] at hc0 hc1 hc2 hc3
  refine ⟨?_, ?_, ?_, ?_⟩ <;> omega

/-- The four sextets are the whole word: each joins the one before it. -/
theorem sextets_append (w : Word24) :
    (sextets w).c0 ++ (sextets w).c1 ++ (sextets w).c2 ++ (sextets w).c3 = w := by
  have htop : (sextets w).c0 ++ (sextets w).c1 = w.extractLsb' 12 12 :=
    BitVec.extractLsb'_append_extractLsb'_eq_extractLsb' rfl
  have hupper : w.extractLsb' 12 12 ++ (sextets w).c2 = w.extractLsb' 6 18 :=
    BitVec.extractLsb'_append_extractLsb'_eq_extractLsb' rfl
  rw [htop, hupper]
  exact (BitVec.extractLsb'_append_extractLsb'_eq_extractLsb' rfl).trans BitVec.extractLsb'_eq_self

/-- Settles O44: the word and its sextets as numbers, and the sextets joined again. -/
theorem sextetsOfAGroup : Obligations.SextetsOfAGroup :=
  ⟨word24_toNat, sextets_toNat, sextets_word24_toNat, sextets_append⟩

/-! ## The characters of a zero-filled group (R87) -/

/-- A sextet of value 0 is the character `A`. -/
theorem b64char_of_toNat_eq_zero {v : Sextet} (h : v.toNat = 0) : b64char v = 0x41#8 := by
  rw [BitVec.eq_of_toNat_eq (y := 0#6) h]
  rfl

/-- With no third byte the last character is `A`. -/
theorem encGroup_c3_of_zero (b0 b1 : Byte) : (encGroup b0 b1 0x00#8).c3 = 0x41#8 := by
  obtain ⟨-, -, -, hc3⟩ := sextets_word24_toNat b0 b1 0x00#8
  exact b64char_of_toNat_eq_zero hc3

/-- With no second and no third byte the last character but one is `A`. -/
theorem encGroup_c2_of_zero (b0 : Byte) : (encGroup b0 0x00#8 0x00#8).c2 = 0x41#8 := by
  obtain ⟨-, -, hc2, -⟩ := sextets_word24_toNat b0 0x00#8 0x00#8
  exact b64char_of_toNat_eq_zero hc2

/-- The low four bits of the second sextet come from the second byte. -/
theorem sextets_c1_mod_of_zero (b0 : Byte) : (sextets (word24 b0 0x00#8 0x00#8)).c1.toNat % 16 = 0 := by
  obtain ⟨-, hc1, -, -⟩ := sextets_word24_toNat b0 0x00#8 0x00#8
  rw [hc1]
  exact Nat.mul_mod_left _ 16

/-- The low two bits of the third sextet come from the third byte. -/
theorem sextets_c2_mod_of_zero (b0 b1 : Byte) : (sextets (word24 b0 b1 0x00#8)).c2.toNat % 4 = 0 := by
  obtain ⟨-, -, hc2, -⟩ := sextets_word24_toNat b0 b1 0x00#8
  rw [hc2]
  exact Nat.mul_mod_left _ 4

/-! ## Encoding group by group (R89) -/

/-- After whole groups the grouping starts anew. -/
theorem encodeGroups_append {whole : List Byte} (rest : List Byte) (h : whole.length % 3 = 0) :
    encodeGroups (whole ++ rest) = encodeGroups whole ++ encodeGroups rest := by
  induction whole using encodeGroups.induct with
  | case1 a b c whole ih =>
    have hwhole : whole.length % 3 = 0 := by
      simpa only [List.length_cons, Nat.add_assoc, Nat.add_mod_right] using h
    simp only [List.cons_append, encodeGroups, ih hwhole, List.append_assoc]
  | case2 => simp at h
  | case3 => simp at h
  | case4 => rfl

/-- Whole groups need no filling. -/
theorem b64Encode_of_whole {whole : List Byte} (h : whole.length % 3 = 0) : b64Encode whole = encodeGroups whole := by
  have hfill : 3 * groupCount whole.length - whole.length = 0 := by unfold groupCount; omega
  rw [b64Encode, hfill, List.replicate_zero, List.append_nil]

/-- Bytes after whole groups are encoded as if they stood alone. -/
theorem b64Encode_append {whole : List Byte} (rest : List Byte) (h : whole.length % 3 = 0) :
    b64Encode (whole ++ rest) = b64Encode whole ++ b64Encode rest := by
  have hfill : 3 * groupCount (whole ++ rest).length - (whole ++ rest).length =
      3 * groupCount rest.length - rest.length := by
    rw [List.length_append]
    unfold groupCount
    omega
  rw [b64Encode_of_whole h, b64Encode, hfill, List.append_assoc, encodeGroups_append _ h, b64Encode]

/-- One byte alone makes one zero-filled group. -/
theorem b64Encode_singleton (b0 : Byte) : b64Encode [b0] = (encGroup b0 0x00#8 0x00#8).toList := by
  simp [b64Encode, groupCount, encodeGroups]

/-- Two bytes alone make one zero-filled group. -/
theorem b64Encode_pair (b0 b1 : Byte) : b64Encode [b0, b1] = (encGroup b0 b1 0x00#8).toList := by
  simp [b64Encode, groupCount, encodeGroups]

/-- Settles O50: the bytes left stand alone after the whole groups, and a zero byte gives sextets of value 0. -/
theorem shortFinalGroupIsZeroFilled : Obligations.ShortFinalGroupIsZeroFilled := by
  intro whole b0 b1 h
  rw [b64Encode_append _ h, b64Encode_append _ h, b64Encode_singleton, b64Encode_pair]
  exact ⟨rfl, rfl, encGroup_c2_of_zero b0, encGroup_c3_of_zero b0 _, encGroup_c3_of_zero b0 b1,
    sextets_c1_mod_of_zero b0, sextets_c2_mod_of_zero b0 b1, rfl, rfl⟩

/-! ## The length of a text (R92) -/

theorem length_encodeGroups (bytes : List Byte) : (encodeGroups bytes).length = 4 * (bytes.length / 3) := by
  induction bytes using encodeGroups.induct with
  | case1 a b c rest ih =>
    rw [encodeGroups, List.length_append, ih, Quad.length_toList]
    simp only [List.length_cons]
    omega
  | case2 => simp [encodeGroups]
  | case3 => simp [encodeGroups]
  | case4 => rfl

theorem length_b64Encode (bytes : List Byte) : (b64Encode bytes).length = 4 * groupCount bytes.length := by
  rw [b64Encode, length_encodeGroups, List.length_append, List.length_replicate]
  unfold groupCount
  omega

/-- A text that `convert` gives is the Base64 text of the bytes that its input decodes to. -/
theorem exists_hexDecode_of_convert {p : Params} {text out : List Byte} (h : convert p text = .ok out) :
    ∃ bytes, hexDecode text = .ok bytes ∧ out = b64Encode bytes := by
  unfold convert at h
  split at h
  · cases h
  · split at h
    · cases h
    · split at h
      · cases h
      · next bytes hbytes => exact ⟨bytes, hbytes, (Except.ok.inj h).symm⟩

/-- Settles O51: `convert` is decoding then encoding, with the lengths of each; the machine's OLEN in DONE is R31(c). -/
theorem outputLengthLaw : Obligations.OutputLengthLaw := by
  refine ⟨fun p text out h => ?_, fun s t hs _ h hdone => ?_⟩
  · obtain ⟨bytes, hbytes, rfl⟩ := exists_hexDecode_of_convert h
    have hlen := length_b64Encode bytes
    exact ⟨bytes, hbytes, hexDecodeHalvesTheLength.1 text bytes hbytes, hlen, hlen ▸ Nat.mul_mod_right 4 _⟩
  · exact ((phaseInv_of_done hdone).1 (exec_machineInv hs h).phase).olen

/-! ## END (R90) -/

/-- In RUN with no nibble waiting, END finishes the message when the final group is flushed. -/
theorem exec_endMsg_of_flushGroup {s u : State} (hp : s.phase = .run) (hv : s.nibv = false)
    (hu : flushGroup s = .ok u) : exec .endMsg s = .next (finishMessage u) := by
  change execEnd s = .next (finishMessage u)
  simp only [execEnd, hp, hv, hu, Bool.false_eq_true, if_false]

/-- Settles O22: with no byte waiting there is no final group to flush. -/
theorem endOnWholeGroupsReleasesTheOutput : Obligations.EndOnWholeGroupsReleasesTheOutput := by
  intro s hp hv hg
  rw [exec_endMsg_of_flushGroup hp hv (flushGroup_of_none hg), hg]
  rfl

/-- Settles O23: the final group is flushed, its characters written from OLEN on. -/
theorem endFlushesTheShortGroup : Obligations.EndFlushesTheShortGroup := by
  intro s hp hv hg hroom
  obtain ⟨u, hu⟩ := exists_flushGroup fun _ => hroom
  obtain ⟨hnone, -⟩ | ⟨-, -, a, b, hone, htwo, rfl⟩ := flushGroup_cases hu
  · exact absurd hnone hg
  · refine ⟨_, exec_endMsg_of_flushGroup hp hv hu, fun h k hk => ?_, fun h k hk => ?_,
      fun i hi => Memory.read_writeFrom_outside _ _ _ hi⟩
    · obtain ⟨rfl, rfl⟩ := hone h
      exact Memory.read_writeFrom_inside _ _ _ hk
    · obtain ⟨rfl, rfl⟩ := htwo h
      exact Memory.read_writeFrom_inside _ _ _ hk

end Sys2Proof.Machine

/-! SUPPORT. What each command does, given the registers it reads: the converse of `exec_next`; and the control and read-out
commands (spec/42_control_readout.md): POP, CLR, RSR, the table of refusals and the transitions of PHASE. -/

namespace Sys2Proof.Machine

/-! ## Refusals and faults (R94, R105) -/

theorem exec_put_of_not_run {s : State} (c : Byte) (hp : s.phase ≠ .run) : exec (.put c) s = .next (refuse s) := by
  change execPut c s = _
  unfold execPut
  split
  · next hrun => exact absurd hrun hp
  · rfl
  · rfl

theorem exec_endMsg_of_not_run {s : State} (hp : s.phase ≠ .run) : exec .endMsg s = .next (refuse s) := by
  change execEnd s = _
  unfold execEnd
  split
  · next hrun => exact absurd hrun hp
  · rfl
  · rfl

theorem exec_pop_of_not_done {s : State} (hp : s.phase ≠ .done) : exec .pop s = .next (refuse s) := by
  change execPop s = _
  unfold execPop
  split
  · next hdone => exact absurd hdone hp
  · rfl
  · rfl

theorem exec_pop_of_all_read {s : State} (hp : s.phase = .done) (hr : s.rptr = s.olen) :
    exec .pop s = .next (refuse s) := by
  change execPop s = _
  simp only [execPop, hp, if_pos hr]

/-- The state refuses the command: the cases of `Effect.refused` (R94). -/
def Refuses (s : State) (i : Instr) : Prop :=
  (∃ c, i = .put c ∧ s.phase ≠ .run) ∨ (i = .endMsg ∧ s.phase ≠ .run) ∨
    (i = .pop ∧ (s.phase ≠ .done ∨ s.rptr = s.olen))

theorem exec_of_refuses {i : Instr} {s : State} (h : Refuses s i) : exec i s = .next (refuse s) := by
  obtain ⟨c, rfl, hp⟩ | ⟨rfl, hp⟩ | ⟨rfl, hr⟩ := h
  · exact exec_put_of_not_run c hp
  · exact exec_endMsg_of_not_run hp
  · by_cases hp : s.phase = .done
    · exact exec_pop_of_all_read hp (hr.resolve_left (not_not_intro hp))
    · exact exec_pop_of_not_done hp

theorem exec_put_of_full {s : State} (c : Byte) (hp : s.phase = .run) (hc : s.pos.toNat = s.params.maxChars) :
    exec (.put c) s = .next (raiseFault .capacityExceeded s.pos c s) := by
  change execPut c s = _
  simp only [execPut, hp, if_pos hc]

theorem exec_put_of_nonDigit {s : State} {c : Byte} (hp : s.phase = .run) (hc : s.pos.toNat ≠ s.params.maxChars)
    (hn : nib c = none) : exec (.put c) s = .next (raiseFault .invalidHexDigit s.pos c s) := by
  change execPut c s = _
  simp only [execPut, hp, if_neg hc, hn]

theorem exec_endMsg_of_odd {s : State} (hp : s.phase = .run) (hv : s.nibv = true) :
    exec .endMsg s = .next (raiseFault .invalidHexLength s.pos 0x00#8 s) := by
  change execEnd s = _
  simp only [execEnd, hp, if_pos hv]

/-! ## POP, CLR and RSR (R95 to R97) -/

theorem exec_pop_of_read {s : State} {v : Byte} (hp : s.phase = .done) (hr : s.rptr ≠ s.olen)
    (hv : Memory.read s.obuf s.rptr.toNat = some v) :
    exec .pop s = .next (respond .ok (zext32 v) { s with rptr := s.rptr + 1 }) := by
  change execPop s = _
  simp only [execPop, hp, if_neg hr, hv]

/-- Settles O25: POP where the cell has a value. -/
theorem popReturnsTheNextCharacter : Obligations.PopReturnsTheNextCharacter :=
  fun _ _ => exec_pop_of_read

/-- Every value read from OBUF is a character of the alphabet (R31(e)). -/
theorem DataInv.mem_alphabet_of_read {s : State} (hs : DataInv s) {k : Nat} {v : Byte}
    (hv : Memory.read s.obuf k = some v) : v ∈ base64Alphabet := by
  rw [Memory.read_eq_sequence hs.cells] at hv
  obtain ⟨-, hout⟩ := dataInv_iff.1 hs
  exact hout.alphabet v (List.mem_of_getElem? hv)

/-- Settles O26: below OLEN there is a cell, which R31(e) says is of the alphabet, and POP reads it. -/
theorem popAlwaysHasItsCharacter : Obligations.PopAlwaysHasItsCharacter := by
  intro s hs hp hlt
  obtain ⟨v, hv⟩ := hs.data.exists_read hlt
  have hr : s.rptr ≠ s.olen := fun h => Nat.lt_irrefl _ (h ▸ hlt)
  exact ⟨v, hv, hs.data.mem_alphabet_of_read hv, exec_pop_of_read hp hr hv⟩

/-- Settles O27: `clearState` is `State.resetOf` but for the ports. -/
theorem clrGivesTheResetState : Obligations.ClrGivesTheResetState := fun _ => rfl

/-- The RSR of a status register (R28). -/
def rsrOf : StatusReg → Instr
  | .status => .rsrStatus
  | .pos => .rsrPos
  | .olen => .rsrOlen
  | .rptr => .rsrRptr
  | .errpos => .rsrErrpos
  | .errchar => .rsrErrchar
  | .cap => .rsrCap

theorem encode_rsrOf (r : StatusReg) : encode (rsrOf r) = BitVec.ofNat 12 (0x500 + (srNumber r).toNat) := by
  cases r <;> rfl

theorem exec_rsrOf (r : StatusReg) (s : State) : exec (rsrOf r) s = .next (readStatus r s) := by
  cases r <;> rfl

/-- The table of R28: command, number and value of each status register. -/
theorem statusRegisterTable (s : State) :
    [StatusReg.status, .pos, .olen, .rptr, .errpos, .errchar, .cap].map
        (fun r => (rsrOf r, (srNumber r).toNat, srValue r s)) =
      [(.rsrStatus, 0, statusWord s), (.rsrPos, 1, s.pos), (.rsrOlen, 2, s.olen), (.rsrRptr, 3, s.rptr),
        (.rsrErrpos, 4, s.errpos), (.rsrErrchar, 5, BitVec.ofNat 32 s.errchar.toNat),
        (.rsrCap, 6, BitVec.ofNat 32 s.params.maxGroups)] := by
  rw [BitVec.ofNat_toNat]
  rfl

/-- A word with the field `op` of RSR and no register's number selects no row (R53). -/
theorem rsr_selects_none {n : Nat} (hn : 7 ≤ n) (hn' : n < 256) :
    ∀ r ∈ opcodeTable, BitVec.ofNat 12 (0x500 + n) &&& r.mask ≠ r.pattern := by
  rw [selects_none_iff, BitVec.toNat_ofNat]
  omega

/-- MAX_GROUPS fits its status register (R6, R27). -/
theorem toNat_capWord (p : Params) : (BitVec.ofNat 32 p.maxGroups).toNat = p.maxGroups :=
  Nat.mod_eq_of_lt (p.maxGroups_le.trans_lt (by decide))

/-- Settles O28: each row of the table is one register, whose RSR is `readStatus`; the corner cases are R31's. -/
theorem rsrReadsItsRegister : Obligations.RsrReadsItsRegister := by
  refine ⟨fun s i n v hmem => ?_, fun n hn hn' => decode_error_of_selects_none (rsr_selects_none hn hn'),
    fun s => toNat_capWord s.params, fun s hs => hs.data.olen_mod, fun s hs hp => ((phaseInv_of_err hp).1 hs.phase).pos⟩
  rw [← statusRegisterTable, List.mem_map] at hmem
  obtain ⟨r, -, hrow⟩ := hmem
  cases hrow
  exact ⟨encode_rsrOf r ▸ decode_encode (rsrOf r), exec_rsrOf r s⟩

/-! ## The table of phases (R94) -/

/-- Where the table of R94 has the command refused. -/
def RefusedByTable (s : State) : Instr → Prop
  | .put _ => s.phase ≠ .run
  | .endMsg => s.phase ≠ .run
  | .pop => ¬(s.phase = .done ∧ s.rptr.toNat < s.olen.toNat)
  | _ => False

/-- In DONE, RPTR is below OLEN or equal to it (R31(c)). -/
theorem DoneInv.rptr_lt_iff {s : State} (hs : DoneInv s) : s.rptr.toNat < s.olen.toNat ↔ s.rptr ≠ s.olen := by
  rw [ne_eq, ← BitVec.toNat_inj]
  exact hs.rptr_le.lt_iff_ne

/-- Under R31 the table's order of RPTR and OLEN is the equality that POP checks (log entry 13). -/
theorem refusedByTable_iff {i : Instr} {s : State} (hs : MachineInv s) : RefusedByTable s i ↔ Refuses s i := by
  cases i with
  | pop =>
    by_cases hp : s.phase = .done
    · simp [RefusedByTable, Refuses, hp, ((phaseInv_of_done hp).1 hs.phase).rptr_lt_iff]
    · simp [RefusedByTable, Refuses, hp]
  | _ => simp [RefusedByTable, Refuses]

/-- Every command that completes gives one response, which is REFUSED exactly by the table. -/
theorem exec_response {i : Instr} {s t : State} (hs : MachineInv s) (h : exec i s = .next t) :
    ∃ r, t.responses = s.responses ++ [r] ∧ (r.status = .refused ↔ RefusedByTable s i) ∧
      (r.status = .refused → t = refuse s) := by
  by_cases htable : RefusedByTable s i
  · have ht : t = refuse s := next_inj ((exec_of_refuses ((refusedByTable_iff hs).1 htable)).symm.trans h)
    exact ⟨⟨.refused, 0⟩, ht ▸ rfl, iff_of_true rfl htable, fun _ => ht⟩
  · suffices hother : ∃ r, t.responses = s.responses ++ [r] ∧ r.status ≠ .refused by
      obtain ⟨r, hr, hstatus⟩ := hother
      exact ⟨r, hr, iff_of_false hstatus htable, fun h => absurd h hstatus⟩
    cases exec_next h with
    | refused hi _ => exact absurd ((refusedByTable_iff hs).2 hi) htable
    | faulted f _ _ ht _ => exact ⟨⟨.fault, zext32 f.code⟩, ht ▸ rfl, nofun⟩
    | accepted _ _ _ _ _ _ ht => exact ⟨⟨.ok, 0⟩, by rw [acceptNibble_frame ht], nofun⟩
    | finished u _ _ _ hu ht => exact ⟨⟨.ok, u.olen⟩, by rw [ht, finishMessage, flushGroup_frame hu]; rfl, nofun⟩
    | popped v _ _ _ _ ht => exact ⟨⟨.ok, zext32 v⟩, ht ▸ rfl, nofun⟩
    | cleared _ ht => exact ⟨⟨.ok, 0⟩, ht ▸ rfl, nofun⟩
    | status r _ ht => exact ⟨⟨.ok, srValue r s⟩, ht ▸ rfl, nofun⟩

/-- Settles O31: under R31 every command completes, and the table says which are refused. -/
theorem refusedExactlyByThePhaseTable : Obligations.RefusedExactlyByThePhaseTable := by
  intro s i hs
  obtain ⟨t, ht⟩ := exists_exec hs i
  obtain ⟨r, hr, htable, hsame⟩ := exec_response hs ht
  refine ⟨t, r, ht, hr, ?_, hsame⟩
  cases i <;> exact htable

/-! ## The transitions of PHASE (R98) -/

/-- PHASE after a command that gives a next state. -/
def phaseAfter (s : State) : Instr → Phase
  | .put c => if s.phase = .run ∧ (s.pos.toNat = s.params.maxChars ∨ nib c = none) then .err else s.phase
  | .endMsg => if s.phase = .run then if s.nibv then .err else .done else s.phase
  | .clr => .run
  | _ => s.phase

theorem exec_phase {i : Instr} {s t : State} (h : exec i s = .next t) : t.phase = phaseAfter s i := by
  cases exec_next h with
  | refused hi ht =>
    subst ht
    obtain ⟨c, rfl, hp⟩ | ⟨rfl, hp⟩ | ⟨rfl, -⟩ := hi <;> simp [phaseAfter, *]
  | faulted f c hp ht hi =>
    subst ht
    obtain ⟨rfl, -, hc⟩ | ⟨rfl, -, -, hn⟩ | ⟨rfl, -, -, hv⟩ := hi <;> simp [phaseAfter, *]
  | accepted c n hp hi hn hc ht =>
    rw [acceptNibble_frame ht, hi]
    simp [phaseAfter, hn, hc]
  | finished u hp hi hv hu ht =>
    subst hi ht
    simp [phaseAfter, finishMessage, hp, hv]
  | popped _ _ hi _ _ ht => subst hi ht; rfl
  | cleared hi ht => subst hi ht; rfl
  | status r hi ht => subst hi ht; cases r <;> rfl

/-- A command's word executes the command. -/
theorem step_of_encode {s : State} {i : Instr} {rest : List Input} (hin : s.inputs = .command (encode i) :: rest) :
    step s = exec i { s with inputs := rest } :=
  stepRunsTheDecodedCommand s (encode i) rest i hin (decode_encode i)

theorem step_of_no_event {s : State} (hin : s.inputs = []) : step s = .next s := by
  rw [step, hin]

theorem step_of_reset {s : State} {rest : List Input} (hin : s.inputs = .reset :: rest) :
    step s = .next (resetEvent { s with inputs := rest }) := by
  rw [step, hin]

/-- Settles O36: a legal word gives its command's phase (`exec_phase`), an illegal one is answered ILLEGAL. -/
theorem phaseTransitions : Obligations.PhaseTransitions := by
  intro s t h
  refine ⟨fun hin => ?_, fun rest hin => ?_, fun w rest hin => ?_⟩
  · rw [step_of_no_event hin] at h
    exact next_inj h ▸ rfl
  · rw [step_of_reset hin] at h
    exact next_inj h ▸ rfl
  · have hlegal : ∀ i, w = encode i → t.phase = phaseAfter s i := by
      rintro i rfl
      rw [exec_phase ((step_of_encode hin).symm.trans h)]
      cases i <;> rfl
    refine ⟨fun hw => ?_, hlegal .clr, fun c hw => ?_, fun hw => ?_, hlegal .pop, fun i hw hi => ?_⟩
    · have ht := h.symm.trans (step_of_selects_none hin (legalWord_eq_false_iff.1 hw))
      exact next_inj ht.symm ▸ rfl
    · rw [hlegal _ hw]
      exact ⟨fun hp => by simp [phaseAfter, hp], fun hp hbad => by simp [phaseAfter, hp, hbad],
        fun hp hc hn => by simp [phaseAfter, hp, hc, hn]⟩
    · rw [hlegal _ hw]
      exact ⟨fun hp => by simp [phaseAfter, hp], fun hp hv => by simp [phaseAfter, hp, hv],
        fun hp hv => by simp [phaseAfter, hp, hv]⟩
    · rw [hlegal i hw]
      rcases hi with rfl | rfl | rfl | rfl | rfl | rfl | rfl <;> rfl

end Sys2Proof.Machine

/-! SUPPORT. The ports apart from the registers: what a command or a step does is the same whatever was answered before; so
messages do not influence one another (spec/42_control_readout.md R103). -/

namespace Sys2Proof.Machine

/-! ## The same registers behind other ports -/

/-- The state with other events pending and with earlier responses on record before its own (log entries 2 and 4). -/
def State.onPorts (s : State) (earlier : List Response) (pending : List Input) : State :=
  { s with inputs := pending, responses := earlier ++ s.responses }

theorem onPorts_sameRegisters (s : State) (earlier : List Response) (pending : List Input) :
    SameRegisters s (s.onPorts earlier pending) :=
  SameRegisters.ports s pending _

section

variable (earlier : List Response) (pending : List Input)

theorem respond_onPorts (st : RspStatus) (d : Word32) (s : State) :
    respond st d (s.onPorts earlier pending) = (respond st d s).onPorts earlier pending := by
  simp [respond, State.onPorts]

theorem append4_onPorts {q : Quad Byte} {s t : State} (h : append4 q s = .ok t) :
    append4 q (s.onPorts earlier pending) = .ok (t.onPorts earlier pending) := by
  obtain ⟨hroom, rfl⟩ := append4_ok_iff.1 h
  exact append4_of_room q hroom

theorem pushByte_onPorts {b : Byte} {s t : State} (h : pushByte b s = .ok t) :
    pushByte b (s.onPorts earlier pending) = .ok (t.onPorts earlier pending) := by
  obtain ⟨hg, rfl⟩ | ⟨hg, rfl⟩ | ⟨hg, hroom, rfl⟩ := pushByte_cases h
  · exact pushByte_of_none hg
  · exact pushByte_of_one hg
  · exact pushByte_of_two hg hroom

theorem flushGroup_onPorts {s t : State} (h : flushGroup s = .ok t) :
    flushGroup (s.onPorts earlier pending) = .ok (t.onPorts earlier pending) := by
  obtain hg | hg | hg := gcnt_cases s.gcnt
  · rw [flushGroup_of_none hg] at h
    cases h
    exact flushGroup_of_none hg
  · rw [flushGroup_of_one hg] at h
    exact (flushGroup_of_one (s := s.onPorts earlier pending) hg).trans (append4_onPorts earlier pending h)
  · rw [flushGroup_of_two hg] at h
    exact (flushGroup_of_two (s := s.onPorts earlier pending) hg).trans (append4_onPorts earlier pending h)

theorem acceptNibble_onPorts {n : Nibble} {s t : State} (h : acceptNibble n s = .ok t) :
    acceptNibble n (s.onPorts earlier pending) = .ok (t.onPorts earlier pending) := by
  obtain ⟨hv, rfl⟩ | ⟨hv, u, hu, rfl⟩ := acceptNibble_cases h
  · rw [← respond_onPorts]
    exact acceptNibble_of_first n hv
  · rw [← respond_onPorts]
    exact acceptNibble_of_second (s := s.onPorts earlier pending) hv (pushByte_onPorts earlier pending hu)

/-- No command looks at the ports: it has the same effect whatever is pending and was answered before. -/
theorem exec_onPorts {i : Instr} {s t : State} (h : exec i s = .next t) :
    exec i (s.onPorts earlier pending) = .next (t.onPorts earlier pending) := by
  cases exec_next h with
  | refused hi ht =>
    rw [ht, refuse, ← respond_onPorts]
    exact exec_of_refuses hi
  | faulted f c hp ht hi =>
    rw [ht, raiseFault, ← respond_onPorts]
    obtain ⟨rfl, rfl, hc⟩ | ⟨rfl, rfl, hc, hn⟩ | ⟨rfl, rfl, rfl, hv⟩ := hi
    · exact exec_put_of_full c hp hc
    · exact exec_put_of_nonDigit hp hc hn
    · exact exec_endMsg_of_odd hp hv
  | accepted c n hp hi hn hc ht =>
    subst hi
    exact exec_put_of_digit hp hc hn (acceptNibble_onPorts earlier pending ht)
  | finished u hp hi hv hu ht =>
    rw [hi, ht, finishMessage, ← respond_onPorts]
    exact exec_endMsg_of_flushGroup (s := s.onPorts earlier pending) hp hv (flushGroup_onPorts earlier pending hu)
  | popped v hp hi hr hv ht =>
    rw [hi, ht, ← respond_onPorts]
    exact exec_pop_of_read hp hr hv
  | cleared hi ht =>
    rw [hi, ht, ← respond_onPorts]
    rfl
  | status r hi ht =>
    rw [hi, ht, readStatus, ← respond_onPorts]
    cases r <;> rfl

end

/-! ## Runs after other responses -/

/-- The state with other responses on record before its own. -/
def State.afterResponses (s : State) (earlier : List Response) : State := s.onPorts earlier s.inputs

/-- A step is the same whatever was answered before. -/
theorem step_afterResponses {s t : State} (h : step s = .next t) (earlier : List Response) :
    step (s.afterResponses earlier) = .next (t.afterResponses earlier) := by
  obtain ⟨hin, rfl⟩ | ⟨rest, hin, rfl⟩ | ⟨w, rest, i, hin, hdec, he⟩ | ⟨w, rest, e, hin, hdec, rfl⟩ := step_next h
  · exact step_of_no_event hin
  · exact step_of_reset hin
  · have htaken : t.afterResponses earlier = t.onPorts earlier rest := by
      rw [State.afterResponses, (exec_inputs_params he).1]
    rw [stepRunsTheDecodedCommand (s.afterResponses earlier) w rest i hin hdec, htaken]
    exact exec_onPorts earlier rest he
  · rw [step_of_decode_error (s := s.afterResponses earlier) hin hdec]
    exact congrArg _ (respond_onPorts earlier rest .illegal 0 { s with inputs := rest })

theorem runSteps_afterResponses {n : Nat} {s t : State} (h : runSteps n s = .next t) (earlier : List Response) :
    runSteps n (s.afterResponses earlier) = .next (t.afterResponses earlier) := by
  induction n generalizing s with
  | zero => rw [next_inj h]; rfl
  | succ n ih =>
    obtain ⟨u, hstep, hrun⟩ := exists_step_of_runSteps h
    rw [runSteps_succ (step_afterResponses hstep earlier), ih hrun]

/-! ## Messages do not influence one another (R103) -/

theorem exists_step {s : State} (hs : MachineInv s) : ∃ t, step s = .next t := by
  cases hin : s.inputs with
  | nil => exact ⟨s, step_of_no_event hin⟩
  | cons e rest =>
    cases e with
    | reset => exact ⟨_, step_of_reset hin⟩
    | command w =>
      obtain ⟨t, -, ht, -⟩ := everyCommandGetsOneResponse s w rest hs hin
      exact ⟨t, ht⟩

/-- From a state that meets R31 a run of any length completes. -/
theorem exists_runSteps {s : State} (n : Nat) (hs : MachineInv s) : ∃ t, runSteps n s = .next t := by
  induction n generalizing s with
  | zero => exact ⟨s, rfl⟩
  | succ n ih =>
    obtain ⟨u, hu⟩ := exists_step hs
    obtain ⟨t, ht⟩ := ih (step_machineInv hs hu)
    exact ⟨t, (runSteps_succ hu).trans ht⟩

/-- CLR and the reset event lead from any state to `State.resetOf` of its parameter; what they answer themselves does not
depend on the state. -/
theorem exists_step_to_reset {e : Input} (he : e = .reset ∨ e = .command (encode .clr)) :
    ∃ own, ∀ (s : State) (es : List Input), step { s with inputs := e :: es } =
      .next ({ State.resetOf s.params with inputs := es, responses := own }.afterResponses s.responses) := by
  obtain rfl | rfl := he
  · refine ⟨[], fun s es => ?_⟩
    rw [step_of_reset rfl, State.afterResponses, State.onPorts, List.append_nil]
    rfl
  · refine ⟨[⟨.ok, 0⟩], fun s es => ?_⟩
    rw [step_of_encode rfl]
    rfl

/-- Settles O40: both runs are the run from `State.resetOf` of the parameter, after other responses. -/
theorem messagesDoNotInfluenceOneAnother : Obligations.MessagesDoNotInfluenceOneAnother := by
  refine ⟨fun s₁ s₂ e es hparams he => ?_, fun s c hp => ?_⟩
  · obtain ⟨own, hown⟩ := exists_step_to_reset he
    have hinv : MachineInv { State.resetOf s₁.params with inputs := es, responses := own } :=
      (SameRegisters.ports _ es own).machineInv (resetOf_machineInv s₁.params)
    obtain ⟨t, ht⟩ := exists_runSteps es.length hinv
    refine ⟨t.afterResponses s₁.responses, t.afterResponses s₂.responses, t.responses, ?_, ?_, rfl, rfl,
      SameRegisters.ports _ _ _⟩
    · exact (runSteps_succ (hown s₁ es)).trans (runSteps_afterResponses ht s₁.responses)
    · exact (runSteps_succ (hown s₂ es)).trans (hparams ▸ runSteps_afterResponses ht s₂.responses)
  · exact exec_put_of_not_run c (by rcases hp with hp | hp <;> simp [hp])

end Sys2Proof.Machine

/-! SUPPORT. Where a message stops: the failures of convert (spec/42_control_readout.md R101). -/

namespace Sys2Proof.Machine

/-! ## The first character at which a message stops -/

/-- The search passes over digits within the capacity. -/
theorem firstStop_append {m i : Nat} {good : List Byte} (rest : List Byte) (h : ∀ d ∈ good, nib d ≠ none)
    (hm : i + good.length ≤ m) : firstStop m i (good ++ rest) = firstStop m (i + good.length) rest := by
  induction good generalizing i with
  | nil => rfl
  | cons d good ih =>
    obtain ⟨hd, hgood⟩ := List.forall_mem_cons.1 h
    obtain ⟨n, hn⟩ := Option.ne_none_iff_exists'.1 hd
    rw [List.length_cons] at hm ⊢
    have hi : i ≠ m := by omega
    have hindex : i + 1 + good.length = i + (good.length + 1) := by omega
    simp only [List.cons_append, firstStop, if_neg hi, hn, ih hgood (hindex ▸ hm), hindex]

/-- Within the capacity only a character that is no digit stops a message. -/
theorem firstStop_eq_firstNonDigit {m i : Nat} {text : List Byte} (h : i + text.length ≤ m) :
    firstStop m i text = firstNonDigit i text := by
  induction text generalizing i with
  | nil => rfl
  | cons c text ih =>
    rw [List.length_cons] at h
    have hi : i ≠ m := by omega
    cases hc : nib c with
    | none => simp only [firstStop, firstNonDigit, if_neg hi, hc]
    | some n => simp only [firstStop, firstNonDigit, if_neg hi, hc, ih (i := i + 1) (by omega)]

/-- A message that stops nowhere is within the capacity. -/
theorem length_le_of_firstStop_none {m i : Nat} {text : List Byte} (hi : i ≤ m) (h : firstStop m i text = none) :
    i + text.length ≤ m := by
  induction text generalizing i with
  | nil => exact hi
  | cons c text ih =>
    unfold firstStop at h
    split_ifs at h with hfull
    split at h
    · cases h
    · have := ih (by omega) h
      rw [List.length_cons]
      omega

/-- A stop of `firstStop`: at the capacity, or below it at a character that is no digit. -/
def Failure.IsStop (m : Nat) (f : Failure) : Prop :=
  f.kind = .capacityExceeded ∧ f.pos = m ∨ f.kind = .invalidHexDigit ∧ f.pos ≠ m ∧ nib f.char = none

/-- A message that stops has digits before its stop, within the capacity. -/
theorem exists_of_firstStop {m i : Nat} {text : List Byte} {f : Failure} (hi : i ≤ m) (h : firstStop m i text = some f) :
    ∃ good rest, text = good ++ f.char :: rest ∧ (∀ d ∈ good, nib d ≠ none) ∧ f.pos = i + good.length ∧ f.pos ≤ m ∧
      f.IsStop m := by
  induction text generalizing i with
  | nil => cases h
  | cons c text ih =>
    unfold firstStop at h
    split_ifs at h with hfull
    · cases h
      exact ⟨[], text, rfl, nofun, rfl, hi, .inl ⟨rfl, hfull⟩⟩
    · split at h
      · next hc =>
        cases h
        exact ⟨[], text, rfl, nofun, rfl, hi, .inr ⟨rfl, hfull, hc⟩⟩
      · next n hc =>
        obtain ⟨good, rest, rfl, hgood, hpos, hle, hstop⟩ := ih (by omega) h
        refine ⟨c :: good, rest, rfl, List.forall_mem_cons.2 ⟨by simp [hc], hgood⟩, ?_, hle, hstop⟩
        rw [hpos, List.length_cons]
        omega

/-! ## `convert` (R101) -/

theorem convert_of_firstStop {p : Params} {text : List Byte} {f : Failure} (h : firstStop p.maxChars 0 text = some f) :
    convert p text = .error f := by
  simp only [convert, h]

/-- Within the capacity `convert` is the decoder followed by the encoder. -/
theorem convert_eq_map {p : Params} {text : List Byte} (h : text.length ≤ p.maxChars) :
    convert p text = (hexDecode text).map b64Encode := by
  have hstop : firstStop p.maxChars 0 text = firstNonDigit 0 text :=
    firstStop_eq_firstNonDigit (by rw [Nat.zero_add]; exact h)
  cases hbad : firstNonDigit 0 text with
  | some f => simp only [convert, hexDecode, hstop, hbad, Except.map]
  | none =>
    have hdigits := firstNonDigit_eq_none_iff.1 hbad
    obtain heven | hodd := Nat.mod_two_eq_zero_or_one text.length
    · simp [convert, hstop, hbad, heven, hexDecode_of_even hdigits heven, Except.map]
    · simp [convert, hstop, hbad, hodd, hexDecode_of_odd hdigits hodd, Except.map]

/-- Settles O52: within the capacity by `convert_eq_map`; digits up to MAX_CHARS are passed over, and the next character
stops the message. -/
theorem convertIsTheSourcesComposition : Obligations.ConvertIsTheSourcesComposition := by
  refine ⟨fun p text h => ?_, fun p digits rest c hlen hdigits => ?_⟩
  · rw [convert_eq_map h]
    cases hexDecode text <;> rfl
  · apply convert_of_firstStop
    rw [firstStop_append _ hdigits (by omega), Nat.zero_add, hlen, firstStop, if_pos rfl]

/-- A text that `convert` takes is an even number of digits within the capacity, and the result is the Base64 text of its
bytes. -/
theorem digits_of_convert_ok {p : Params} {text out : List Byte} (h : convert p text = .ok out) :
    (∀ d ∈ text, nib d ≠ none) ∧ text.length % 2 = 0 ∧ text.length ≤ p.maxChars ∧
      out = b64Encode (pairUp (text.filterMap nib)) := by
  obtain ⟨bytes, hbytes, rfl⟩ := exists_hexDecode_of_convert h
  obtain ⟨hdigits, heven, rfl⟩ := digits_of_hexDecode_ok hbytes
  refine ⟨hdigits, heven, ?_, rfl⟩
  cases hstop : firstStop p.maxChars 0 text with
  | some f => exact nomatch h.symm.trans (convert_of_firstStop hstop)
  | none => simpa using length_le_of_firstStop_none (Nat.zero_le _) hstop

/-- A text that `convert` does not take stops at a character, or is an odd number of digits within the capacity. -/
theorem convert_error_cases {p : Params} {text : List Byte} {f : Failure} (h : convert p text = .error f) :
    (∃ good rest, text = good ++ f.char :: rest ∧ (∀ d ∈ good, nib d ≠ none) ∧ f.pos = good.length ∧
      f.pos ≤ p.maxChars ∧ f.IsStop p.maxChars) ∨
    ((∀ d ∈ text, nib d ≠ none) ∧ text.length ≤ p.maxChars ∧ text.length % 2 = 1 ∧
      f = ⟨.invalidHexLength, text.length, 0x00#8⟩) := by
  cases hstop : firstStop p.maxChars 0 text with
  | some g =>
    obtain rfl : g = f := Except.error.inj ((convert_of_firstStop hstop).symm.trans h)
    obtain ⟨good, rest, htext, hgood, hpos, hle, hf⟩ := exists_of_firstStop (Nat.zero_le _) hstop
    exact .inl ⟨good, rest, htext, hgood, hpos.trans (Nat.zero_add _), hle, hf⟩
  | none =>
    have hlen : text.length ≤ p.maxChars := by simpa using length_le_of_firstStop_none (Nat.zero_le _) hstop
    have hdigits : ∀ d ∈ text, nib d ≠ none := by
      rwa [firstStop_eq_firstNonDigit (by rwa [Nat.zero_add]), firstNonDigit_eq_none_iff] at hstop
    rw [convert_eq_map hlen] at h
    obtain heven | hodd := Nat.mod_two_eq_zero_or_one text.length
    · rw [hexDecode_of_even hdigits heven] at h
      cases h
    · rw [hexDecode_of_odd hdigits hodd] at h
      exact .inr ⟨hdigits, hlen, hodd, (Except.error.inj h).symm⟩

end Sys2Proof.Machine

/-! SUPPORT. The machine computes convert (spec/42_control_readout.md R102): the commands of a message one after another, what
the registers hold of the characters accepted so far, the read-out, and the refusals after a fault. -/

namespace Sys2Proof.Machine

/-! ## Commands one after another -/

/-- The commands execute one after another, each with a next state. -/
inductive Executes : List Instr → State → State → Prop
  | nil (s : State) : Executes [] s s
  | cons {i : Instr} {is : List Instr} {s t u : State} (h : exec i s = .next t) (hs : Executes is t u) :
    Executes (i :: is) s u

theorem Executes.single {i : Instr} {s t : State} (h : exec i s = .next t) : Executes [i] s t := .cons h (.nil t)

theorem Executes.append {is js : List Instr} {s t u : State} (h : Executes is s t) (h' : Executes js t u) :
    Executes (is ++ js) s u := by
  induction h with
  | nil => exact h'
  | cons hi _ ih => exact .cons hi (ih h')

/-- Offered as the host's events, the commands run to the same registers and responses. -/
theorem Executes.runSteps_onPorts {is : List Instr} {s t : State} (h : Executes is s t) :
    runSteps is.length (s.onPorts [] (events is)) = .next (t.onPorts [] []) := by
  induction h with
  | nil => rfl
  | @cons i is s t u hi _ ih =>
    have htaken := exec_onPorts [] (events is) hi
    have hstep : step (s.onPorts [] (events (i :: is))) = .next (t.onPorts [] (events is)) :=
      (step_of_encode rfl).trans htaken
    exact (runSteps_succ hstep).trans ih

/-- The run of a stream that executes from reset. -/
theorem Executes.runSteps_start {p : Params} {is : List Instr} {t : State} {n : Nat}
    (h : Executes is (State.resetOf p) t) (hn : is.length = n) : runSteps n (start p is) = .next (t.onPorts [] []) :=
  hn ▸ h.runSteps_onPorts

/-! ## What the registers hold of the bytes so far (R83) -/

/-- The bytes waiting in B0 and B1 (R18, R19). -/
def State.waitingBytes (s : State) : List Byte :=
  match s.gcnt with
  | 0 => []
  | 1 => [s.b0]
  | 2 => [s.b0, s.b1]

theorem waitingBytes_of_none {s : State} (h : s.gcnt = 0) : s.waitingBytes = [] := by
  unfold State.waitingBytes; rw [h]

theorem waitingBytes_of_one {s : State} (h : s.gcnt = 1) : s.waitingBytes = [s.b0] := by
  unfold State.waitingBytes; rw [h]

theorem waitingBytes_of_two {s : State} (h : s.gcnt = 2) : s.waitingBytes = [s.b0, s.b1] := by
  unfold State.waitingBytes; rw [h]

/-- The state holds these bytes: the whole groups encoded in OBUF, the others waiting. -/
def HoldsBytes (s : State) (bytes : List Byte) : Prop :=
  ∃ whole, whole.length % 3 = 0 ∧ bytes = whole ++ s.waitingBytes ∧ s.obuf.map Prod.snd = encodeGroups whole

theorem pushByte_holdsBytes {s t : State} {b : Byte} {bytes : List Byte} (hs : HoldsBytes s bytes) (hd : DataInv s)
    (h : pushByte b s = .ok t) : HoldsBytes t (bytes ++ [b]) := by
  obtain ⟨whole, hwhole, rfl, hout⟩ := hs
  obtain ⟨hg, rfl⟩ | ⟨hg, rfl⟩ | ⟨hg, -, rfl⟩ := pushByte_cases h
  · refine ⟨whole, hwhole, ?_, hout⟩
    rw [waitingBytes_of_none hg, waitingBytes_of_one rfl, List.append_nil]
  · refine ⟨whole, hwhole, ?_, hout⟩
    rw [waitingBytes_of_one hg, waitingBytes_of_two rfl, List.append_assoc]
    rfl
  · refine ⟨whole ++ [s.b0, s.b1, b], by simpa using hwhole, ?_, ?_⟩
    · rw [waitingBytes_of_two hg, waitingBytes_of_none rfl, List.append_nil, List.append_assoc]
      rfl
    · rw [(Memory.writeFrom_appends hd.cells _).2, hout, encodeGroups_append _ hwhole]
      simp [encodeGroups]

/-- After the final group OBUF holds the Base64 text of the bytes (R87, R89). -/
theorem flushGroup_b64Encode {s t : State} {bytes : List Byte} (hs : HoldsBytes s bytes) (hd : DataInv s)
    (h : flushGroup s = .ok t) : t.obuf.map Prod.snd = b64Encode bytes := by
  obtain ⟨whole, hwhole, rfl, hout⟩ := hs
  rw [b64Encode_append _ hwhole, b64Encode_of_whole hwhole, ← hout]
  obtain hg | hg | hg := gcnt_cases s.gcnt
  · rw [flushGroup_of_none hg] at h
    cases h
    rw [waitingBytes_of_none hg]
    exact (List.append_nil _).symm
  · rw [flushGroup_of_one hg] at h
    obtain ⟨-, rfl⟩ := append4_ok_iff.1 h
    rw [waitingBytes_of_one hg, b64Encode_singleton]
    exact (Memory.writeFrom_appends hd.cells _).2
  · rw [flushGroup_of_two hg] at h
    obtain ⟨-, rfl⟩ := append4_ok_iff.1 h
    rw [waitingBytes_of_two hg, b64Encode_pair]
    exact (Memory.writeFrom_appends hd.cells _).2

/-! ## What the registers hold of the digits so far (R74) -/

/-- The nibble waiting in NIB (R16, R17). -/
def State.waitingNibble (s : State) : List Nibble := if s.nibv then [s.nib] else []

/-- The state holds these nibbles: those of whole bytes as bytes, an odd one waiting. -/
def HoldsNibbles (s : State) (nibbles : List Nibble) : Prop :=
  ∃ paired, paired.length % 2 = 0 ∧ nibbles = paired ++ s.waitingNibble ∧ HoldsBytes s (pairUp paired)

/-- After whole pairs the pairing starts anew. -/
theorem pairUp_append {paired : List Nibble} (rest : List Nibble) (h : paired.length % 2 = 0) :
    pairUp (paired ++ rest) = pairUp paired ++ pairUp rest := by
  induction paired using pairUp.induct with
  | case1 a b paired ih =>
    have hpaired : paired.length % 2 = 0 := by
      simpa only [List.length_cons, Nat.add_assoc, Nat.add_mod_right] using h
    simp only [List.cons_append, pairUp, ih hpaired]
  | case2 => simp at h
  | case3 => rfl

theorem acceptNibble_holdsNibbles {s t : State} {n : Nibble} {nibbles : List Nibble} (hs : HoldsNibbles s nibbles)
    (hd : DataInv s) (h : acceptNibble n s = .ok t) : HoldsNibbles t (nibbles ++ [n]) := by
  obtain ⟨paired, heven, rfl, hbytes⟩ := hs
  obtain ⟨hv, rfl⟩ | ⟨hv, u, hu, rfl⟩ := acceptNibble_cases h
  · refine ⟨paired, heven, ?_, hbytes⟩
    simp [State.waitingNibble, hv]
  · have hwaiting : HoldsBytes { s with nib := 0, nibv := false } (pairUp paired) := hbytes
    have hidle : DataInv { s with nib := 0, nibv := false } :=
      ⟨fun _ => rfl, hd.b0, hd.b1, hd.cells, hd.alphabet, hd.olen_mod, hd.olen_le⟩
    have huv : u.nibv = false := by rw [pushByte_frame hu]
    refine ⟨paired ++ [s.nib, n], by simpa using heven, ?_, ?_⟩
    · simp [State.waitingNibble, hv, huv]
    · rw [pairUp_append _ heven]
      exact (pushByte_holdsBytes hwaiting hidle hu :)

/-! ## The characters accepted (R102) -/

/-- The block with MAX_GROUPS of `p` has been given these digits since reset, and nothing else. -/
structure Reading (p : Params) (digits : List Byte) (s : State) : Prop where
  inv : MachineInv s
  params : s.params = p
  phase : s.phase = .run
  pos : s.pos.toNat = digits.length
  holds : HoldsNibbles s (digits.filterMap nib)
  responses : s.responses = List.replicate digits.length ⟨.ok, 0⟩

theorem reading_resetOf (p : Params) : Reading p [] (State.resetOf p) :=
  ⟨resetOf_machineInv p, rfl, rfl, rfl, ⟨[], rfl, rfl, [], rfl, rfl, rfl⟩, rfl⟩

theorem Reading.put {p : Params} {digits : List Byte} {s : State} {c : Byte} (h : Reading p digits s)
    (hc : nib c ≠ none) (hroom : digits.length < p.maxChars) :
    ∃ t, exec (.put c) s = .next t ∧ Reading p (digits ++ [c]) t := by
  obtain ⟨n, hn⟩ := Option.ne_none_iff_exists'.1 hc
  have hlt : s.pos.toNat < s.params.maxChars := by rw [h.pos, h.params]; exact hroom
  obtain ⟨t, ht⟩ := exists_acceptNibble n ((phaseInv_of_run h.phase).1 h.inv.phase).room
  have hframe := acceptNibble_frame ht
  have hholds : HoldsNibbles t ((digits ++ [c]).filterMap nib) := by
    rw [List.filterMap_append, List.filterMap_cons_some hn]
    exact acceptNibble_holdsNibbles h.holds h.inv.data ht
  exact ⟨t, exec_put_of_digit h.phase hlt.ne hn ht, {
    inv := acceptNibble_machineInv h.inv h.phase hlt.ne ht
    params := by rw [hframe]; exact h.params
    phase := by rw [hframe]; exact h.phase
    pos := by rw [hframe, List.length_append, ← h.pos]; exact toNat_pos_add_one hlt
    holds := hholds
    responses := by rw [hframe, h.responses, List.length_append, List.length_singleton, List.replicate_succ'] }⟩

theorem Reading.puts {p : Params} {digits text : List Byte} {s : State} (h : Reading p digits s)
    (htext : ∀ d ∈ text, nib d ≠ none) (hroom : digits.length + text.length ≤ p.maxChars) :
    ∃ t, Executes (text.map .put) s t ∧ Reading p (digits ++ text) t := by
  induction text generalizing digits s with
  | nil => exact ⟨s, .nil s, by rwa [List.append_nil]⟩
  | cons c text ih =>
    obtain ⟨hc, htext⟩ := List.forall_mem_cons.1 htext
    rw [List.length_cons] at hroom
    obtain ⟨u, hu, hread⟩ := h.put hc (by omega)
    obtain ⟨t, ht, hread⟩ := ih hread htext (by rw [List.length_append, List.length_singleton]; omega)
    exact ⟨t, .cons hu ht, by rwa [List.append_assoc] at hread⟩

/-- From reset, digits within the capacity are all accepted. -/
theorem exists_reading {p : Params} {digits : List Byte} (h : ∀ d ∈ digits, nib d ≠ none)
    (hroom : digits.length ≤ p.maxChars) : ∃ s, Executes (digits.map .put) (State.resetOf p) s ∧ Reading p digits s :=
  (reading_resetOf p).puts h (by rwa [List.length_nil, Nat.zero_add])

/-- A nibble waits after an odd number of digits. -/
theorem Reading.nibv {p : Params} {digits : List Byte} {s : State} (h : Reading p digits s) :
    s.nibv = decide (digits.length % 2 = 1) := by
  rw [((phaseInv_of_run h.phase).1 h.inv.phase).nibv, h.pos]

/-! ## The result released and read out (R95, R102(a)) -/

/-- The result is released; its first characters have been read, the others are left. -/
structure Released (read left : List Byte) (s : State) : Prop where
  phase : s.phase = .done
  cells : s.obuf.map Prod.fst = List.range s.olen.toNat
  text : s.obuf.map Prod.snd = read ++ left
  rptr : s.rptr.toNat = read.length

theorem Released.olen {read left : List Byte} {s : State} (h : Released read left s) :
    s.olen.toNat = read.length + left.length := by
  rw [← List.length_append, ← h.text, List.length_map, ← List.length_map Prod.fst, h.cells, List.length_range]

/-- END after an even number of digits releases the Base64 text of their bytes. -/
theorem Reading.endMsg {p : Params} {digits : List Byte} {s : State} (h : Reading p digits s)
    (heven : digits.length % 2 = 0) : ∃ t, exec .endMsg s = .next t ∧
      Released [] (b64Encode (pairUp (digits.filterMap nib))) t ∧ t.responses = s.responses ++ [⟨.ok, t.olen⟩] := by
  have hrun := (phaseInv_of_run h.phase).1 h.inv.phase
  have hv : s.nibv = false := by rw [h.nibv, heven]; rfl
  obtain ⟨paired, -, hnibbles, hbytes⟩ := h.holds
  have hpaired : digits.filterMap nib = paired := by simpa [State.waitingNibble, hv] using hnibbles
  obtain ⟨u, hu⟩ := exists_flushGroup hrun.room
  have hexec := exec_endMsg_of_flushGroup h.phase hv hu
  have hresp : u.responses = s.responses := by rw [flushGroup_frame hu]
  have hrptr : u.rptr = 0 := by rw [flushGroup_frame hu]; exact hrun.rptr
  refine ⟨finishMessage u, hexec, ⟨rfl, (exec_machineInv h.inv hexec).data.cells, ?_, ?_⟩, ?_⟩
  · rw [hpaired]
    exact (flushGroup_b64Encode hbytes h.inv.data hu :)
  · exact congrArg BitVec.toNat hrptr
  · exact congrArg (· ++ _) hresp

theorem Released.pop {read left : List Byte} {v : Byte} {s : State} (h : Released read (v :: left) s) :
    ∃ t, exec .pop s = .next t ∧ Released (read ++ [v]) left t ∧ t.responses = s.responses ++ [⟨.ok, zext32 v⟩] := by
  have holen := h.olen
  have hrptr := h.rptr
  rw [List.length_cons] at holen
  have hr : s.rptr ≠ s.olen := fun heq => by rw [heq] at hrptr; omega
  have hread : Memory.read s.obuf s.rptr.toNat = some v := by
    rw [Memory.read_eq_sequence h.cells, h.text, hrptr, List.getElem?_append_right (Nat.le_refl _), Nat.sub_self]
    rfl
  have hsucc : (s.rptr + 1).toNat = read.length + 1 := by bv_omega
  refine ⟨_, exec_pop_of_read h.phase hr hread, ⟨h.phase, h.cells, ?_, ?_⟩, rfl⟩
  · rw [List.append_assoc]
    exact h.text
  · rw [List.length_append]
    exact hsucc

theorem Released.pops {read left : List Byte} {s : State} (h : Released read left s) :
    ∃ t, Executes (List.replicate left.length .pop) s t ∧ Released (read ++ left) [] t ∧
      t.responses = s.responses ++ left.map fun c => ⟨.ok, zext32 c⟩ := by
  induction left generalizing read s with
  | nil => exact ⟨s, .nil s, by rwa [List.append_nil], (List.append_nil _).symm⟩
  | cons v left ih =>
    obtain ⟨u, hu, hrel, hresp⟩ := h.pop
    obtain ⟨t, ht, hrel, hresp'⟩ := ih hrel
    refine ⟨t, .cons hu ht, by rwa [List.append_assoc] at hrel, ?_⟩
    rw [hresp', hresp, List.append_assoc]
    rfl

theorem Released.pop_all_read {read : List Byte} {s : State} (h : Released read [] s) : exec .pop s = .next (refuse s) :=
  exec_pop_of_all_read h.phase (BitVec.eq_of_toNat_eq (h.rptr.trans h.olen.symm))

/-- Where `convert` gives a text, the commands of the message release it, each PUT answered OK and END with the length. -/
theorem exists_released_of_convert {p : Params} {text out : List Byte} (h : convert p text = .ok out) :
    ∃ u, Executes (messageOf text) (State.resetOf p) u ∧ Released [] out u ∧
      u.responses = List.replicate text.length ⟨.ok, 0⟩ ++ [⟨.ok, BitVec.ofNat 32 out.length⟩] := by
  obtain ⟨hdigits, heven, hroom, rfl⟩ := digits_of_convert_ok h
  obtain ⟨s, hputs, hread⟩ := exists_reading hdigits hroom
  obtain ⟨u, hend, hrel, hresp⟩ := hread.endMsg heven
  refine ⟨u, hputs.append (.single hend), hrel, ?_⟩
  have holen := hrel.olen
  rw [List.length_nil, Nat.zero_add] at holen
  rw [hresp, hread.responses, ← holen, BitVec.ofNat_toNat, BitVec.setWidth_eq]

theorem length_messageOf (text : List Byte) : (messageOf text).length = text.length + 1 := by simp [messageOf]

/-- Settles O41: the message releases the text (`exists_released_of_convert`), the POPs read it, the last one finds nothing. -/
theorem machineComputesConvert : Obligations.MachineComputesConvert := by
  intro p text out h
  obtain ⟨u, hu, hrel, hresp⟩ := exists_released_of_convert h
  obtain ⟨t, ht, hall, hpops⟩ := hrel.pops
  refine ⟨⟨_, hu.runSteps_start (length_messageOf text), hrel.phase, hrel.olen.trans (Nat.zero_add _), hresp⟩, ?_⟩
  have hmore : Executes (messageOf text ++ List.replicate (out.length + 1) .pop) (State.resetOf p) (refuse t) := by
    rw [List.replicate_succ']
    exact hu.append (ht.append (.single hall.pop_all_read))
  refine ⟨_, hmore.runSteps_start (by rw [List.length_append, length_messageOf, List.length_replicate]), ?_⟩
  exact congrArg (· ++ _) (hpops.trans (congrArg (· ++ _) hresp))

/-! ## The failure reported (R102(b)) -/

/-- In ERR every command of a message and POP is refused, one after another (R112). -/
theorem executes_refused_of_err {is : List Instr} {s : State} (hp : s.phase = .err)
    (his : ∀ i ∈ is, (∃ c, i = .put c) ∨ i = .endMsg ∨ i = .pop) :
    Executes is s { s with responses := s.responses ++ List.replicate is.length ⟨.refused, 0⟩ } := by
  induction is generalizing s with
  | nil => simpa using Executes.nil s
  | cons i is ih =>
    obtain ⟨hi, his⟩ := List.forall_mem_cons.1 his
    have hexec : exec i s = .next (refuse s) := by
      obtain ⟨c, rfl⟩ | rfl | rfl := hi
      · exact exec_put_of_not_run c (by simp [hp])
      · exact exec_endMsg_of_not_run (by simp [hp])
      · exact exec_pop_of_not_done (by simp [hp])
    have hrest := Executes.cons hexec (ih (s := refuse s) hp his)
    rwa [refuse_responses, List.append_assoc, List.singleton_append, ← List.replicate_succ] at hrest

/-- The commands of a message are PUT and END. -/
theorem mem_messageOf {text : List Byte} {i : Instr} (h : i ∈ messageOf text) : (∃ c, i = .put c) ∨ i = .endMsg := by
  simp only [messageOf, List.mem_append, List.mem_map, List.mem_singleton] at h
  obtain ⟨c, -, rfl⟩ | rfl := h
  · exact .inl ⟨c, rfl⟩
  · exact .inr rfl

/-- A stop of the text is the fault of its PUT. -/
theorem Reading.fault_of_isStop {p : Params} {good : List Byte} {f : Failure} {s : State} (h : Reading p good s)
    (hpos : f.pos = good.length) (hf : f.IsStop p.maxChars) :
    exec (.put f.char) s = .next (raiseFault f.kind s.pos f.char s) := by
  have hs : s.pos.toNat = f.pos := h.pos.trans hpos.symm
  obtain ⟨hkind, hfull⟩ | ⟨hkind, hroom, hc⟩ := hf
  · rw [hkind]
    exact exec_put_of_full _ h.phase (by rw [hs, h.params, hfull])
  · rw [hkind]
    exact exec_put_of_nonDigit h.phase (by rw [hs, h.params]; exact hroom) hc

/-- Where `convert` fails, the message has digits, the command that faults, and further commands of its kind. -/
theorem exists_fault_of_convert {p : Params} {text : List Byte} {f : Failure} (h : convert p text = .error f) :
    ∃ good i rest, messageOf text = good.map Instr.put ++ i :: rest ∧ f.pos = good.length ∧
      ∃ s, Executes (good.map .put) (State.resetOf p) s ∧ Reading p good s ∧
        exec i s = .next (raiseFault f.kind s.pos f.char s) := by
  obtain ⟨good, rest, rfl, hgood, hpos, hle, hstop⟩ | ⟨hdigits, hroom, hodd, rfl⟩ := convert_error_cases h
  · obtain ⟨s, hputs, hread⟩ := exists_reading hgood (hpos ▸ hle)
    refine ⟨good, .put f.char, messageOf rest, ?_, hpos, s, hputs, hread, hread.fault_of_isStop hpos hstop⟩
    simp [messageOf]
  · obtain ⟨s, hputs, hread⟩ := exists_reading hdigits hroom
    have hv : s.nibv = true := by rw [hread.nibv, hodd]; rfl
    exact ⟨text, .endMsg, [], rfl, rfl, s, hputs, hread, exec_endMsg_of_odd hread.phase hv⟩

/-- Settles O42: the digits before the stop are accepted, the stop is a fault entry, and ERR refuses the rest. -/
theorem machineReportsTheFailureOfConvert : Obligations.MachineReportsTheFailureOfConvert := by
  intro p text f h
  obtain ⟨good, i, rest, hmessage, hpos, s, hputs, hread, hfault⟩ := exists_fault_of_convert h
  have hlen : text.length + 1 = good.length + (rest.length + 1) := by
    simpa [length_messageOf] using congrArg List.length hmessage
  have hrest : ∀ j ∈ rest ++ [.pop], (∃ c, j = .put c) ∨ j = .endMsg ∨ j = .pop := by
    intro j hj
    obtain hj | hj := List.mem_append.1 hj
    · exact (mem_messageOf (hmessage ▸ List.mem_append_right _ (List.mem_cons_of_mem i hj))).imp_right .inl
    · exact .inr (.inr (List.mem_singleton.1 hj))
  have hrun := hputs.append (.cons hfault (executes_refused_of_err rfl hrest))
  rw [← List.cons_append, ← List.append_assoc, ← hmessage] at hrun
  refine ⟨_, hrun.runSteps_start (by rw [List.length_append, length_messageOf, List.length_singleton]), ?_, rfl, rfl,
    hread.pos.trans hpos.symm, rfl, rfl⟩
  have hrefused : (rest ++ [Instr.pop]).length = text.length + 1 - f.pos := by
    rw [List.length_append, List.length_singleton]
    omega
  rw [← hrefused, hpos, ← hread.responses]
  rfl

end Sys2Proof.Machine

/-! SUPPORT. Exceptions (spec/60_exceptions.md): the fault entry and the commands that take it, refusals, the phase ERR, and that
the block never stops. -/

namespace Sys2Proof.Machine

/-! ## The fault entry (R110) -/

/-- Whatever command leads into ERR, its whole effect is the fault entry at POS: no other effect of a command makes the phase
ERR. -/
theorem eq_raiseFault_of_exec_enters_err {i : Instr} {s t : State} (h : exec i s = .next t) (hp : s.phase ≠ .err)
    (hpt : t.phase = .err) : ∃ f c, t = raiseFault f s.pos c s := by
  cases exec_next h with
  | faulted f c _ ht _ => exact ⟨f, c, ht⟩
  | refused _ ht => subst ht; exact absurd hpt hp
  | accepted _ _ _ _ _ _ ht =>
    rw [acceptNibble_frame ht] at hpt
    exact absurd hpt hp
  | finished _ _ _ _ _ ht => subst ht; exact nomatch hpt
  | popped _ _ _ _ _ ht => subst ht; exact absurd hpt hp
  | cleared _ ht => subst ht; exact nomatch hpt
  | status _ _ ht => subst ht; exact absurd hpt hp

/-- Settles O20: the code of each fault is the data of its response; into ERR leads the fault entry alone. -/
theorem faultEntryWritesExactlyThis : Obligations.FaultEntryWritesExactlyThis := by
  refine ⟨fun f pos ch s => ⟨?_, (errOut_iff _).2 (raiseFault_phase f pos ch s)⟩,
    fun i s t => eq_raiseFault_of_exec_enters_err⟩
  cases f with
  | invalidHexDigit => rfl
  | invalidHexLength => rfl
  | capacityExceeded => rfl

/-! ## The three faults (R106 to R108) -/

theorem nib_eq_none_of_not_mem_hexDigitTable {c : Byte} (h : ∀ n, (c, n) ∉ hexDigitTable) : nib c = none :=
  Option.eq_none_iff_forall_not_mem.2 fun n hn => h n (mem_hexDigitTable_of_nib c n hn)

/-- Settles O18: outside the table the lookup finds no nibble. -/
theorem putNonDigitRaisesInvalidHexDigit : Obligations.PutNonDigitRaisesInvalidHexDigit := by
  intro s c hp hc hmem
  exact ⟨exec_put_of_nonDigit hp hc (nib_eq_none_of_not_mem_hexDigitTable hmem), rfl, rfl, rfl, rfl, rfl, rfl⟩

/-- Settles O19: the capacity is checked before the character. -/
theorem putBeyondCapacityRaisesCapacityExceeded : Obligations.PutBeyondCapacityRaisesCapacityExceeded := by
  intro s c hp hc
  exact ⟨exec_put_of_full c hp hc, hc, rfl, rfl, rfl, rfl⟩

/-- In RUN a nibble waits exactly when the number of characters is odd (R31(b)). -/
theorem RunInv.nibv_iff {s : State} (hs : RunInv s) : s.nibv = true ↔ s.pos.toNat % 2 = 1 := by
  rw [hs.nibv, decide_eq_true_iff]

/-- Settles O21: END checks NIBV first; under R31 it says that the length is odd. -/
theorem endOnOddLengthRaisesInvalidHexLength : Obligations.EndOnOddLengthRaisesInvalidHexLength := by
  intro s hp hv
  have hodd : MachineInv s → s.pos.toNat % 2 = 1 := fun hs => ((phaseInv_of_run hp).1 hs.phase).nibv_iff.1 hv
  exact ⟨exec_endMsg_of_odd hp hv, rfl, rfl, rfl, rfl, rfl, hodd⟩

/-! ## Refusals (R114) -/

/-- Settles O30: each case is one of `Refuses`. -/
theorem refusedCommandsChangeNothing : Obligations.RefusedCommandsChangeNothing := by
  intro s i h
  apply exec_of_refuses
  obtain ⟨⟨c, rfl⟩, hp⟩ | ⟨rfl, hp⟩ | ⟨rfl, hp⟩ | ⟨rfl, -, hr⟩ := h
  · exact .inl ⟨c, rfl, hp⟩
  · exact .inr (.inl ⟨rfl, hp⟩)
  · exact .inr (.inr ⟨rfl, .inl hp⟩)
  · exact .inr (.inr ⟨rfl, .inr hr⟩)

/-! ## The phase ERR (R112) -/

/-- In ERR every command but CLR completes, with a response and no register changed. -/
theorem exists_exec_of_err {i : Instr} {s : State} (hp : s.phase = .err) (hi : i ≠ .clr) :
    ∃ t, exec i s = .next t ∧ SameRegisters s t := by
  have hrun : s.phase ≠ .run := by simp [hp]
  have hdone : s.phase ≠ .done := by simp [hp]
  cases i with
  | put c => exact ⟨_, exec_put_of_not_run c hrun, respond_sameRegisters _ _ s⟩
  | endMsg => exact ⟨_, exec_endMsg_of_not_run hrun, respond_sameRegisters _ _ s⟩
  | pop => exact ⟨_, exec_pop_of_not_done hdone, respond_sameRegisters _ _ s⟩
  | clr => exact absurd rfl hi
  | _ => exact ⟨_, rfl, respond_sameRegisters _ _ s⟩

/-- In ERR a step that takes a word other than CLR's, legal or not, changes no register. -/
theorem exists_step_of_err {s : State} {w : Command} {rest : List Input} (hp : s.phase = .err)
    (hin : s.inputs = .command w :: rest) (hw : w ≠ encode .clr) :
    ∃ t, step s = .next t ∧ SameRegisters s t ∧ t.inputs = rest := by
  have htaken := take_sameRegisters s rest
  cases hdec : decode w with
  | error e => exact ⟨_, step_of_decode_error hin hdec, htaken.trans (respond_sameRegisters _ _ _), rfl⟩
  | ok i =>
    have hi : i ≠ .clr := fun h => hw (h ▸ (encode_of_decode hdec).symm)
    obtain ⟨t, ht, hsame⟩ := exists_exec_of_err (s := { s with inputs := rest }) hp hi
    exact ⟨t, (stepRunsTheDecodedCommand s w rest i hin hdec).trans ht, htaken.trans hsame, (exec_inputs_params ht).1⟩

/-- The host has only command words pending, none of them CLR's. -/
def NoWayOutOfErr (pending : List Input) : Prop := ∀ e ∈ pending, ∃ w, e = .command w ∧ w ≠ encode .clr

/-- In ERR a run of any length with no CLR and no reset pending changes no register. -/
theorem exists_runSteps_of_err {n : Nat} {s : State} (hp : s.phase = .err) (hpending : NoWayOutOfErr s.inputs) :
    ∃ t, runSteps n s = .next t ∧ SameRegisters s t := by
  induction n generalizing s with
  | zero => exact ⟨s, rfl, .refl s⟩
  | succ n ih =>
    have hstep : ∃ u, step s = .next u ∧ SameRegisters s u ∧ NoWayOutOfErr u.inputs := by
      cases hin : s.inputs with
      | nil => exact ⟨s, step_of_no_event hin, .refl s, hpending⟩
      | cons e rest =>
        obtain ⟨⟨w, rfl, hw⟩, hrest⟩ := List.forall_mem_cons.1 (hin ▸ hpending)
        obtain ⟨u, hu, hsame, hinputs⟩ := exists_step_of_err hp hin hw
        exact ⟨u, hu, hsame, hinputs ▸ hrest⟩
    obtain ⟨u, hu, hsame, hrest⟩ := hstep
    obtain ⟨t, ht, hsame'⟩ := ih (hsame.phase.symm.trans hp) hrest
    exact ⟨t, (runSteps_succ hu).trans ht, hsame.trans hsame'⟩

/-- Settles O38: PUT, END and POP are refused outside their phases, RSR reads in every phase, and a run changes no
register. -/
theorem errPhaseIsSticky : Obligations.ErrPhaseIsSticky := by
  refine ⟨fun s hp => ?_, fun n s => exists_runSteps_of_err⟩
  have hrun : s.phase ≠ .run := by simp [hp]
  have hdone : s.phase ≠ .done := by simp [hp]
  exact ⟨fun c => exec_put_of_not_run c hrun, exec_endMsg_of_not_run hrun, exec_pop_of_not_done hdone,
    exec_rsrOf .status s, exec_rsrOf .errpos s, exec_rsrOf .errchar s⟩

/-! ## The block never stops (R116, R122, R134) -/

/-- Settles O8: the step's branch for no pending event. -/
theorem stepWithoutEventHoldsState : Obligations.StepWithoutEventHoldsState := fun _ => step_of_no_event

/-- Settles O35: under R31 every step completes, and the next state meets R31 again. -/
theorem machineNeverStops : Obligations.MachineNeverStops := fun _ n => exists_runSteps n

end Sys2Proof.Machine

/-! SUPPORT. Reset (spec/70_reset_and_hazards.md). -/

namespace Sys2Proof.Machine

/-! ## The reset event (R123) -/

/-- Settles O9: the step's branch for the reset event, whose registers are those of `State.resetOf` (`clearState_eq`). -/
theorem resetEventReplacesTheRegisters : Obligations.ResetEventReplacesTheRegisters := by
  intro s rest hin
  rw [step_of_reset hin, resetEvent, clearState_eq]

end Sys2Proof.Machine
